-- ==== Sys2Proof/Word.lean ====
section
/-! DEFINITION. The value types of the block and the integer primitives of the spec's pseudocode
(spec/00_scope.md rules R9 to R12). A register, a byte and a color are bit vectors, because the spec reads
their bits. A coordinate, a length, an error term or an address under computation is an `Int`, because R9 and
R11 ask for exact arithmetic over the mathematical integers. -/

namespace Sys2Proof

/-- One byte of host memory (R27). -/
abbrev Byte := BitVec 8

/-- One 32-bit command-port register (R20). -/
abbrev Word := BitVec 32

/-- An output index, or physical color: the 2-bit value the framebuffer stores for a pixel (R17). -/
abbrev Color := BitVec 2

/-- A draw-color nibble (R16). -/
abbrev Nibble := BitVec 4

end Sys2Proof
end

