-- ==== Sys2Proof/Config.lean ====
section
/-! DEFINITION. What an implementation fixes (the parameters of spec/00_scope.md rule R7 and `PORT_BASE` of
spec/30_encoding.md rule R60), and the free values: what spec/93_implementation_defined.md lists as "any value".
A free value is an `opaque` constant with no body, so that nothing can be proved about the value it takes. -/

namespace Sys2Proof

/-- `FLIP_BASIS` (R7, R157): what a blit flip mirrors about. -/
inductive FlipBasis where
  | declared
  | clipped
deriving DecidableEq, Repr

/-- `ROTATE_DIMS` (R7, R156): what the width and height of a rotated blit mean. -/
inductive RotateDims where
  | dest
  | source
deriving DecidableEq, Repr

/-- The implementation parameters of R7, and `PORT_BASE` of R60. "A model must take the open parameters as
arguments" (R8): they stand in the machine's state as plain data that no step changes. -/
structure Params where
  /-- `WIDTH`, in pixels. -/
  width : Nat
  /-- `HEIGHT`, in pixels. -/
  height : Nat
  /-- `HOST_MEM_SIZE`, in bytes. -/
  hostMemSize : Nat
  /-- `FB_BASE`: host address of framebuffer byte 0. -/
  fbBase : Nat
  /-- `DC_ADDR`: host address of the draw-color register's low byte. -/
  dcAddr : Nat
  /-- `FONT_BASE`: host address of the glyph for code 32. -/
  fontBase : Nat
  /-- `FONT_GLYPHS`: how many glyphs the atlas holds. -/
  fontGlyphs : Nat
  /-- `PORT_BASE`: where the platform puts the command port (R60). -/
  portBase : Nat
  /-- `ELLIPSE_F_SENTINEL` (R122). -/
  ellipseFSentinel : Bool
  /-- `FLIP_BASIS` (R157). -/
  flipBasis : FlipBasis
  /-- `ROTATE_DIMS` (R156). -/
  rotateDims : RotateDims
deriving DecidableEq, Repr

/-- `FB_BYTES = WIDTH*HEIGHT/4` (R7, R26). -/
def Params.fbBytes (p : Params) : Nat := p.width * p.height / 4

/-- The parameters `State.reset` carries. `WIDTH`, `HEIGHT` and the three switches are R7's own defaults. The
open ones are DESIGN CHOICES (notes/assumptions/1.md): host memory, framebuffer and draw-color address are the
examples of R8, the font values those of the default setup of spec/95_test_vectors.md, the port base 0. -/
def Params.default : Params where
  width := 160
  height := 160
  hostMemSize := 65536
  fbBase := 0xA0
  dcAddr := 0x14
  fontBase := 0x80
  fontGlyphs := 0
  portBase := 0
  ellipseFSentinel := true
  flipBasis := .declared
  rotateDims := .dest

/-- Which read, or which register, of a command or of a reset asks for a free value. Each place at which one
command can ask has a name of its own, so that every draw is fresh (R44). -/
inductive DrawSite where
  /-- The low byte of the draw-color register (R24). -/
  | dcLow
  /-- The high byte of the draw-color register (R24). -/
  | dcHigh
  /-- Code `i` of a TEXT command (R140). -/
  | code (i : Nat)
  /-- The sample for local column `c` and row `r`: of the glyph of code `glyph`, or of a BLIT (`glyph = 0`). -/
  | sample (glyph : Nat) (c r : Int)
  /-- `CMD` after a reset (R33). -/
  | resetCmd
  /-- `ARGi` after a reset (R33). -/
  | resetArg (i : Nat)
  /-- The `DC` latch after a reset (R33). -/
  | resetDc
deriving DecidableEq, Repr

/-- The name of one free value: the serial number of the command or reset that asks, and the place in it. -/
structure Draw where
  serial : Nat
  site : DrawSite
deriving DecidableEq, Repr

/-- `draw()` of R13: the byte an out-of-range read returns (R44, U1), and the byte a source read returns that
lies in the framebuffer (R48, U3). -/
opaque Config.freeByte : Draw → Byte

/-- The sampled bit of a glyph outside the atlas (R144, U2). -/
opaque Config.freeBit : Draw → BitVec 1

/-- The value in `[0, 3]` of a pixel that a command writes which reads framebuffer bytes as source data
(R48, U3). -/
opaque Config.freeColor : Draw → Color

/-- The value of a 32-bit register of unspecified content after a reset (R190, U12). -/
opaque Config.freeWord : Draw → Word

end Sys2Proof
end

