-- ==== Sys2Proof/Syntax.lean ====
section
/-! DEFINITION. The command set: one constructor for each row of spec/opcode_table.json (spec/30_encoding.md rule R63).
A constructor carries what the `CMD` word carries beside the opcode: the `COLOR` operand (R65) and BLIT's
four mode bits (R64). The other operands are argument registers, which a meaning reads from the state (R62, R67). -/

namespace Sys2Proof

/-- One command of the block. -/
inductive Instr where
  /-- CLEAR (R84). -/
  | clear
  /-- WRITE_U (R85), with `COLOR`. -/
  | writeU (c : Color)
  /-- WRITE_C (R86), with `COLOR`. -/
  | writeC (c : Color)
  /-- FILL_ROW (R101), with `COLOR`. -/
  | fillRow (c : Color)
  /-- HLINE (R103). -/
  | hline
  /-- VLINE (R104). -/
  | vline
  /-- RECT (R105). -/
  | rect
  /-- OVAL (R120). -/
  | oval
  /-- LINE (R130). -/
  | line
  /-- TEXT (R140). -/
  | text
  /-- BLIT (R150), with the `BPP2`, `FLIPX`, `FLIPY` and `ROTATE` bits. -/
  | blit (bpp2 flipX flipY rotate : Bool)
deriving DecidableEq, Repr

end Sys2Proof
end

