-- ==== Sys2Proof/WellFormed.lean ====
section
/-! DEFINITION. When a parameter set meets the constraints of spec/00_scope.md rule R7, and when a command is
well formed. -/

namespace Sys2Proof

/-- The address range of the framebuffer, `FB_BASE .. FB_BASE + FB_BYTES - 1` (R26). -/
abbrev Params.InFramebuffer (p : Params) (a : Nat) : Prop :=
  p.fbBase ≤ a ∧ a < p.fbBase + p.fbBytes

/-- The constraints of R7. A parameter set that breaks one is refused (U18 of
spec/93_implementation_defined.md). -/
abbrev Params.WF (p : Params) : Prop :=
  4 ≤ p.width ∧ p.width % 4 = 0 ∧ 1 ≤ p.height ∧ 1 ≤ p.hostMemSize ∧
  p.fbBase + p.fbBytes ≤ p.hostMemSize ∧
  p.dcAddr + 2 ≤ p.hostMemSize ∧
  ¬ p.InFramebuffer p.dcAddr ∧ ¬ p.InFramebuffer (p.dcAddr + 1) ∧
  p.fontBase + 8 * p.fontGlyphs ≤ p.hostMemSize

/-- A command is well formed. Every term of `Instr` is: `COLOR` is a 2-bit value, which "can hold only legal
values, so no range check is needed" (D42 of spec/92_eei_decisions.md), and all 16 combinations of BLIT's
flags are legal (R64). -/
def Instr.wf : Instr → Bool
  | .clear => true
  | .writeU _ => true
  | .writeC _ => true
  | .fillRow _ => true
  | .hline => true
  | .vline => true
  | .rect => true
  | .oval => true
  | .line => true
  | .text => true
  | .blit _ _ _ _ => true

end Sys2Proof
end

