-- ==== Sys2Proof/Decode.lean ====
section
/-! DEFINITION. The command word (spec/30_encoding.md rules R61 to R66 and R69): its fields, the decoder, which is
total on every 32-bit word and rejects by name, and the encoder. -/

namespace Sys2Proof

/-- `OP = CMD[3:0]` (R61). -/
def cmdOp (w : Word) : BitVec 4 := w.extractLsb' 0 4

/-- `FLAGS = CMD[7:4]` (R61). -/
def cmdFlags (w : Word) : BitVec 4 := w.extractLsb' 4 4

/-- `COLOR = CMD[9:8]` (R61). -/
def cmdColor (w : Word) : Color := w.extractLsb' 8 2

/-- `RESV = CMD[31:10]` (R61). -/
def cmdResv (w : Word) : BitVec 22 := w.extractLsb' 10 22

/-- Why a `CMD` value is illegal: one name for each clause of R66 (its two opcode clauses share one). -/
inductive DecodeError where
  /-- `RESV` is not 0. -/
  | reservedBits
  /-- `OP` is 0 or at least 0xC. -/
  | reservedOpcode
  /-- `FLAGS` is not 0 and `OP` is not BLIT's. -/
  | flagsUnused
  /-- `COLOR` is not 0 and `OP` is not one of 2, 3, 4. -/
  | colorUnused
deriving DecidableEq, Repr

/-- A command with neither `COLOR` nor `FLAGS`. -/
def decodePlain (w : Word) (i : Instr) : Except DecodeError Instr :=
  if cmdFlags w ≠ 0 then .error .flagsUnused
  else if cmdColor w ≠ 0 then .error .colorUnused
  else .ok i

/-- A command with the `COLOR` operand (R65). -/
def decodeColored (w : Word) (i : Color → Instr) : Except DecodeError Instr :=
  if cmdFlags w ≠ 0 then .error .flagsUnused
  else .ok (i (cmdColor w))

/-- BLIT: the four mode bits, from bit 4 up, are `BPP2`, `FLIPX`, `FLIPY`, `ROTATE` (R64). -/
def decodeBlit (w : Word) : Except DecodeError Instr :=
  if cmdColor w ≠ 0 then .error .colorUnused
  else .ok (.blit (w.getLsbD 4) (w.getLsbD 5) (w.getLsbD 6) (w.getLsbD 7))

/-- The decoder of R66, total on 32-bit words. The port carries a whole 32-bit word (R60), so no byte order
comes into it. -/
def decode (w : Word) : Except DecodeError Instr :=
  if cmdResv w ≠ 0 then .error .reservedBits
  else match (cmdOp w).toNat with
    | 0x1 => decodePlain w .clear
    | 0x2 => decodeColored w .writeU
    | 0x3 => decodeColored w .writeC
    | 0x4 => decodeColored w .fillRow
    | 0x5 => decodePlain w .hline
    | 0x6 => decodePlain w .vline
    | 0x7 => decodePlain w .rect
    | 0x8 => decodePlain w .oval
    | 0x9 => decodePlain w .line
    | 0xA => decodePlain w .text
    | 0xB => decodeBlit w
    | _ => .error .reservedOpcode

/-- A `CMD` word from its fields (R61). -/
def cmdWord (color : Color) (flags op : BitVec 4) : Word := (0#22 ++ color ++ flags ++ op).cast rfl

/-- The encoder: the `CMD` word of a command, from the table of R69. -/
def encode : Instr → Word
  | .clear => cmdWord 0 0 0x1
  | .writeU c => cmdWord c 0 0x2
  | .writeC c => cmdWord c 0 0x3
  | .fillRow c => cmdWord c 0 0x4
  | .hline => cmdWord 0 0 0x5
  | .vline => cmdWord 0 0 0x6
  | .rect => cmdWord 0 0 0x7
  | .oval => cmdWord 0 0 0x8
  | .line => cmdWord 0 0 0x9
  | .text => cmdWord 0 0 0xA
  | .blit bpp2 flipX flipY rotate =>
    cmdWord 0 (BitVec.ofBool rotate ++ BitVec.ofBool flipY ++ BitVec.ofBool flipX ++ BitVec.ofBool bpp2) 0xB

/-- The instruction that the decoder reads from a row's bits. A command is one 32-bit word (R68), so the word
is its bits, and the bits from `nbits` up are 0. -/
def decodeTableWord (nbits w : Nat) : Option Instr :=
  match decode (BitVec.ofNat 32 (w % 2 ^ nbits)) with
  | .ok i => some i
  | .error _ => none

end Sys2Proof
end

