-- ==== Sys2Proof/Machine/State.lean ====
section
/-! DEFINITION. The machine's state as plain data (spec/10_state.md rule R33), the reasons a step can stop, and
the state after reset (spec/70_reset_and_hazards.md rule R190). -/

namespace Sys2Proof.Machine

open Sys2Proof

/-- Host memory (R27): pairs of address and byte, addresses strictly rising, no byte equal to `Memory.blank`. -/
abbrev Memory := List Host.Cell

/-- What an address that is not listed reads as. R191 leaves host memory after reset unspecified; the value 0
is a DESIGN CHOICE, and unsafe (notes/assumptions/2.md). -/
def Memory.blank : Byte := 0

/-- Every listed address is above `lo`, the addresses rise strictly, and no listed byte is blank. -/
def Memory.wfAbove : Option Nat → Memory → Bool
  | _, [] => true
  | lo, (k, v) :: m => (lo.all (fun l => decide (l < k))) && v != Memory.blank && Memory.wfAbove (some k) m

/-- Memory is in its one canonical form, so that equal memories are equal data. -/
def Memory.wf (m : Memory) : Bool := Memory.wfAbove none m

/-- The argument registers `ARG0` to `ARG7` (R20). -/
structure Args where
  arg0 : Word
  arg1 : Word
  arg2 : Word
  arg3 : Word
  arg4 : Word
  arg5 : Word
  arg6 : Word
  arg7 : Word
deriving DecidableEq, Repr

/-- What the host does to the block and to host memory: the other agent of R18. An address of the port is an
address of the port's own space, with the port at `PORT_BASE` (R60). -/
inductive HostAction where
  /-- A port write of `bytes` bytes at `addr`. -/
  | portWrite (addr bytes : Nat) (value : Word)
  /-- A port read of `bytes` bytes at `addr`. -/
  | portRead (addr bytes : Nat)
  /-- The host writes one byte of host memory. -/
  | memWrite (addr : Nat) (value : Byte)
  /-- The host reads one byte of host memory. -/
  | memRead (addr : Nat)
  /-- The block is reset (R190). -/
  | reset
deriving DecidableEq, Repr

/-- The whole machine. No command is in progress between two steps (R46), so R33's "command in progress" has
the one value "none" in every state and takes no field. -/
structure State where
  /-- The implementation parameters (R7). No step changes them. -/
  params : Params
  /-- `CMD` (R20, R23). -/
  cmd : Word
  /-- `STATUS` (R22): bit 0 `ILLEGAL`, bit 1 `PRECOND`. -/
  status : Word
  /-- `ARG0` to `ARG7` (R20, R23). -/
  args : Args
  /-- The draw-color latch `DC` (R25). Between commands, where R32 and R33 make it unobservable, it keeps the value
  last latched: a DESIGN CHOICE (notes/assumptions/18.md). -/
  dc : BitVec 16
  /-- Host memory, the framebuffer among it (R26, R27). -/
  mem : Memory
  /-- MODEL's own: the serial number the next command or reset takes in its free values (`Draw`). -/
  draws : Nat
  /-- MODEL's own: what the host does next, first action first (R50: one total order). -/
  pending : List HostAction
  /-- MODEL's own: the value the host's last read returned. -/
  hostData : Word
deriving DecidableEq, Repr

/-- The model's faults. The block itself has none: what the spec calls a fault sets a bit of `STATUS` and the
machine goes on (R170, R171). -/
inductive Fault where
  /-- Raised by a host access to an address outside host memory, `[0, HOST_MEM_SIZE)` (R27). Safe: the spec
  gives such an access no effect. -/
  | noHostByte (addr : Nat)
deriving DecidableEq, Repr

/-- Why the model has no transition. -/
inductive Refusal where
  /-- Raised by `exec` for an instruction with no meaning yet. Safe. -/
  | notModelled (mnemonic : String)
  /-- Raised by every step under parameters that break R7's constraints ("refused", U18). Safe. -/
  | badParameters
  /-- Raised by a port access that is not 32 bits wide, not aligned, or not in the port's registers (R197:
  "a model refuses them", U10). Safe. -/
  | portAccess
  /-- Raised by a host write to a framebuffer byte (R196: "a model gives the host no move that writes the
  framebuffer", U11). Safe. -/
  | hostFramebufferWrite
deriving DecidableEq, Repr

/-- What a step or a meaning answers. -/
abbrev Out := Host.Outcome State Fault Refusal

/-- Eight argument registers holding 0. -/
def Args.zero : Args := ⟨0, 0, 0, 0, 0, 0, 0, 0⟩

/-- The machine after reset under parameters `p`, with host memory `m`, which a reset does not write (R191).
`STATUS = 0` is R190's. `CMD`, `ARGi` and `DC` are unspecified there; 0 is a DESIGN CHOICE, and unsafe
(notes/assumptions/3.md). -/
def State.resetWith (p : Params) (m : Memory) : State where
  params := p
  cmd := 0
  status := 0
  args := Args.zero
  dc := 0
  mem := m
  draws := 0
  pending := []
  hostData := 0

/-- The machine right after reset: nothing listed in memory, nothing asked by the host yet (R192: "it waits for
a write to `CMD`"). -/
def State.reset : State := State.resetWith Params.default []

end Sys2Proof.Machine
end

