-- ==== Sys2Proof/Machine/Ops.lean ====
section
/-! DEFINITION. The named operations over registers and host memory (spec/00_scope.md rule R13,
spec/20_memory.md, spec/10_state.md), raising an exception (spec/60_exceptions.md), and the pixel range of a loop. -/

namespace Sys2Proof.Machine

open Sys2Proof

/-! ## Integers -/

/-- `a >> k`: the arithmetic right shift, `floor(a / 2^k)` for every integer `a` (R11). -/
def asr (a : Int) (k : Nat) : Int := a >>> k

/-- `a & (2^k - 1) = a mod 2^k`, in `[0, 2^k)` also for a negative `a` (R11). -/
def lowBits (a : Int) (k : Nat) : Nat := (a % (2 ^ k : Nat)).toNat

/-! ## Loops -/

/-- The values of `for v in [lo, hi)`, ascending, none if `lo ≥ hi` (R12). -/
def intRange (lo hi : Int) : List Int := (List.range (hi - lo).toNat).map fun k : Nat => lo + (k : Int)

/-! ## Host memory as a list of cells -/

/-- The byte at `a`. -/
def Memory.read : Memory → Nat → Byte
  | [], _ => Memory.blank
  | (k, v) :: m, a => if a = k then v else if a < k then Memory.blank else Memory.read m a

/-- The memory with byte `v` at `a`, in canonical form. -/
def Memory.write : Memory → Nat → Byte → Memory
  | [], a, v => if v = Memory.blank then [] else [(a, v)]
  | (k, w) :: m, a, v =>
    if a < k then (if v = Memory.blank then (k, w) :: m else (a, v) :: (k, w) :: m)
    else if a = k then (if v = Memory.blank then m else (k, v) :: m)
    else (k, w) :: Memory.write m a v

/-! ## Register updates -/

def State.setCmd (s : State) (w : Word) : State := { s with cmd := w }
def State.setStatus (s : State) (w : Word) : State := { s with status := w }
def State.setArgs (s : State) (r : Args) : State := { s with args := r }
def State.setDc (s : State) (v : BitVec 16) : State := { s with dc := v }
def State.setMem (s : State) (m : Memory) : State := { s with mem := m }
def State.setDraws (s : State) (n : Nat) : State := { s with draws := n }
def State.setPending (s : State) (q : List HostAction) : State := { s with pending := q }
def State.setHostData (s : State) (w : Word) : State := { s with hostData := w }

/-- `ARG[i]` (R13). -/
def Args.get (r : Args) : Fin 8 → Word
  | 0 => r.arg0
  | 1 => r.arg1
  | 2 => r.arg2
  | 3 => r.arg3
  | 4 => r.arg4
  | 5 => r.arg5
  | 6 => r.arg6
  | 7 => r.arg7

/-- The argument registers after a host write of `w` to `ARGi` (R60). -/
def Args.set (r : Args) (i : Fin 8) (w : Word) : Args :=
  match i with
  | 0 => { r with arg0 := w }
  | 1 => { r with arg1 := w }
  | 2 => { r with arg2 := w }
  | 3 => { r with arg3 := w }
  | 4 => { r with arg4 := w }
  | 5 => { r with arg5 := w }
  | 6 => { r with arg6 := w }
  | 7 => { r with arg7 := w }

/-! ## Exceptions -/

/-- The two exceptions of the block, each a bit of `STATUS` (R22). -/
inductive Exception where
  /-- An illegal `CMD` word (R170). -/
  | illegal
  /-- A broken precondition of WRITE_U or FILL_ROW (R171). -/
  | precond
deriving DecidableEq, Repr

/-- The cause bit of an exception (R170: `STATUS[0]`, R171: `STATUS[1]`). -/
def Exception.mask : Exception → Word
  | .illegal => 0x1
  | .precond => 0x2

/-- Taking an exception: the cause bit is set, and nothing else changes (R170, R171). A fault saves no other
state, changes no mode and goes to no vector (R176); there is no return from one (R177). -/
def State.raise (s : State) (e : Exception) : State := s.setStatus (s.status ||| e.mask)

/-! ## The block's reads of host memory -/

/-- `MemRead(addr, 1)` (R13): the byte stored there, or a free byte outside host memory (R44). -/
def State.memRead (s : State) (d : Draw) (a : Int) : Byte :=
  if 0 ≤ a ∧ a < s.params.hostMemSize then s.mem.read a.toNat else Config.freeByte d

/-- Whether a source address lies in the framebuffer (R48). -/
def sourceInFramebuffer (p : Params) (a : Int) : Bool :=
  decide ((p.fbBase : Int) ≤ a ∧ a < (p.fbBase : Int) + (p.fbBytes : Int))

/-- A read of a sprite, glyph or text byte: as `MemRead`, but a byte inside the framebuffer samples as a free
byte (R48, U3). -/
def State.sourceRead (s : State) (d : Draw) (a : Int) : Byte :=
  if sourceInFramebuffer s.params a then Config.freeByte d else s.memRead d a

/-! ## The draw-color latch -/

/-- The draw-color register as host memory holds it, little-endian (R24, R42). -/
def State.drawColors (s : State) : BitVec 16 :=
  s.memRead ⟨s.draws, .dcHigh⟩ ((s.params.dcAddr : Int) + 1) ++ s.memRead ⟨s.draws, .dcLow⟩ (s.params.dcAddr : Int)

/-- The start of a top-level draw command: the latch takes the draw-color register (R25). The command takes a
serial number of its own for its free values. DESIGN CHOICE: the latch keeps its value until the next draw command
or reset; R32 and R33 leave open what it holds between commands, where it is not observable
(notes/assumptions/18.md). -/
def State.latch (s : State) : State := (s.setDc s.drawColors).setDraws (s.draws + 1)

end Sys2Proof.Machine
end

