-- ==== Sys2Proof/Machine/Color.lean ====
section
/-! DEFINITION. The Color Resolver (spec/41_color_resolver.md): pure and total functions of the latched draw colors. -/

namespace Sys2Proof.Machine

open Sys2Proof

/-- `Nib(reg, k) = (reg >> (4*k)) & 0xF` for `k` in `[0, 3]` (R90). -/
def nib (reg : BitVec 16) (k : Color) : Nibble := (reg >>> (4 * k.toNat)).setWidth 4

/-- `RawColor(n) = (n - 1) & 3` (R91). -/
def rawColor (n : Nibble) : Color := (n - 1).setWidth 2

/-- `ShapeColor(n)`: nothing for the transparent nibble 0, else `RawColor(n)` (R91). -/
def shapeColor (n : Nibble) : Option Color := if n = 0 then none else some (rawColor n)

/-- `SpriteColor(reg, i) = ShapeColor(Nib(reg, i))` for a logical index `i` (R92). -/
def spriteColor (reg : BitVec 16) (i : Color) : Option Color := shapeColor (nib reg i)

end Sys2Proof.Machine
end

