-- ==== Sys2Proof/Machine/Operands.lean ====
section
/-! DEFINITION. Operand assembly (spec/30_encoding.md rule R67): the operand forms that commands take from the
argument registers. -/

namespace Sys2Proof.Machine

open Sys2Proof

/-- `sARG[i] = sext_32(ARG[i])`: a coordinate, dimension, length or stride (R13, R67). -/
def sArg (s : State) (i : Fin 8) : Int := (s.args.get i).toInt

/-- `uARG[i] = zext_32(ARG[i])`: a pointer (R13, R67). -/
def uArg (s : State) (i : Fin 8) : Int := ((s.args.get i).toNat : Int)

end Sys2Proof.Machine
end

