-- ==== Sys2Proof/Machine/Pixels.lean ====
section
/-! DEFINITION. Packed pixels (spec/40_pixel_store.md rules R80 to R83, spec/20_memory.md rule R40) and spans
(spec/42_spans_lines_rect.md rules R100 and R102). A command's framebuffer effect is "a sequence of `PutPixel`
calls" (R88): here a list of `PixelWrite`s, carried out in order by `State.paint`. -/

namespace Sys2Proof.Machine

open Sys2Proof

/-- The pixel lies on the canvas `[0, WIDTH) × [0, HEIGHT)` (R17). -/
abbrev InCanvas (p : Params) (x y : Int) : Prop :=
  0 ≤ x ∧ x < (p.width : Int) ∧ 0 ≤ y ∧ y < (p.height : Int)

/-- `FbIndex(x, y) = (WIDTH*y + x) >> 2` (R80). -/
def fbIndex (p : Params) (x y : Int) : Int := asr ((p.width : Int) * y + x) 2

/-- `FbShift(x) = (x & 3) << 1` (R80). -/
def fbShift (x : Int) : Nat := lowBits x 2 <<< 1

/-- The host address of a pixel's byte, `FB_BASE + FbIndex(x, y)` (R81, R82). -/
def pixelAddr (p : Params) (x y : Int) : Nat := ((p.fbBase : Int) + fbIndex p x y).toNat

/-- `Pix(x, y)` (R81), for a pixel on the canvas. -/
def pix (p : Params) (m : Memory) (x y : Int) : Color :=
  (m.read (pixelAddr p x y) >>> fbShift x).setWidth 2

/-- A framebuffer byte with the two bits at `k` replaced by `c`: the value that `PutPixel` writes (R82). -/
def insertColor (b : Byte) (c : Color) (k : Nat) : Byte :=
  (b &&& (0xFF#8 ^^^ (3#8 <<< k))) ||| (c.setWidth 8 <<< k)

/-- `PutPixel(c, x, y)`, the unchecked write (R82); every caller gives it a pixel on the canvas. -/
def putPixel (p : Params) (m : Memory) (c : Color) (x y : Int) : Memory :=
  m.write (pixelAddr p x y) (insertColor (m.read (pixelAddr p x y)) c (fbShift x))

/-- One call of `PutPixel`. -/
structure PixelWrite where
  c : Color
  x : Int
  y : Int
deriving DecidableEq, Repr

/-- The memory after a sequence of `PutPixel` calls. -/
def putPixels (p : Params) (m : Memory) (ws : List PixelWrite) : Memory :=
  ws.foldl (fun m w => putPixel p m w.c w.x w.y) m

/-- The state after a sequence of `PutPixel` calls: only framebuffer bytes change (R45). -/
def State.paint (s : State) (ws : List PixelWrite) : State := s.setMem (putPixels s.params s.mem ws)

/-- `PutPixelClipped(c, x, y)`: no call outside the canvas (R83). -/
def pixelClipped (p : Params) (c : Color) (x y : Int) : List PixelWrite :=
  if InCanvas p x y then [⟨c, x, y⟩] else []

/-- `Span(c, x0, y, x1)`: the per-pixel loop that defines the span fill (R100). -/
def span (c : Color) (x0 y x1 : Int) : List PixelWrite := (intRange x0 x1).map fun xx => ⟨c, xx, y⟩

/-- The vertical run of `PutPixel` calls in column `x`, rows `[y0, y1)`, of VLINE and of RECT's columns
(R104, R105). -/
def column (c : Color) (x y0 y1 : Int) : List PixelWrite := (intRange y0 y1).map fun yy => ⟨c, x, yy⟩

/-- `SpanClipped(c, x0, y, x1)` (R102). -/
def spanClipped (p : Params) (c : Color) (x0 y x1 : Int) : List PixelWrite :=
  if 0 ≤ y ∧ y < (p.height : Int) then
    (if max 0 x0 < min (p.width : Int) x1 then span c (max 0 x0) y (min (p.width : Int) x1) else [])
  else []

/-- The byte of four pixels of color `c`: `c | c<<2 | c<<4 | c<<6` (R100). -/
def replicated (c : Color) : Byte := c ++ c ++ c ++ c

/-- The memory with byte `v` at the `n` framebuffer bytes from host address `a` on. -/
def fillBytes (v : Byte) : Nat → Nat → Memory → Memory
  | 0, _, m => m
  | n + 1, a, m => fillBytes v n (a + 1) (m.write a v)

/-- The source's fast path for a span (R100): single pixels up to the next byte boundary, whole bytes in the
aligned middle, single pixels to the end. No meaning uses it; R100 asks that it equal `span`'s loop, byte for
byte. -/
def spanFast (p : Params) (m : Memory) (c : Color) (x0 y x1 : Int) : Memory :=
  let left := min x1 ((x0 + 3) / 4 * 4)
  let right := max left (x1 / 4 * 4)
  let m1 := putPixels p m (span c x0 y left)
  let m2 := fillBytes (replicated c) ((right - left) / 4).toNat (pixelAddr p left y) m1
  putPixels p m2 (span c right y x1)

end Sys2Proof.Machine
end

