-- ==== Sys2Proof/Machine/Ellipse.lean ====
section
/-! DEFINITION. OVAL (spec/43_ellipse.md rules R120 to R125): the two-region midpoint ellipse over exact integers. -/

namespace Sys2Proof.Machine

open Sys2Proof

/-- What stays fixed during one OVAL: centre, semi-axes, stroke color, and the fill color if there is a fill
(R120, R121, R123). -/
structure Oval where
  x0 : Int
  y0 : Int
  a : Int
  b : Int
  stroke : Color
  fill : Option Color
deriving DecidableEq, Repr

/-- The variables of the walk (R120); `ddx` counts only in region 2. -/
structure Arc where
  X : Int
  Y : Int
  dx : Int
  dy : Int
  sx : Int
  sy : Int
  e : Int
  ddx : Int
deriving DecidableEq, Repr

/-- `Plot4(X, Y)`: the four mirrored stroke points, in order (R120). -/
def plot4 (p : Params) (o : Oval) (X Y : Int) : List PixelWrite :=
  pixelClipped p o.stroke (o.x0 + X) (o.y0 + Y) ++
  pixelClipped p o.stroke (o.x0 + X) (o.y0 - Y) ++
  pixelClipped p o.stroke (o.x0 - X) (o.y0 + Y) ++
  pixelClipped p o.stroke (o.x0 - X) (o.y0 - Y)

/-- Two fill spans `[lo, hi)`, on the rows `Y` below and above the centre; none without a fill (R124, R125). -/
def fill2 (p : Params) (o : Oval) (lo hi Y : Int) : List PixelWrite :=
  match o.fill with
  | none => []
  | some c => spanClipped p c lo (o.y0 + Y) hi ++ spanClipped p c lo (o.y0 - Y) hi

/-- Region 1 before its first pass (R120, R124). -/
def arc1Start (o : Oval) : Arc :=
  { X := o.a, Y := 0, dx := (1 - 2 * o.a) * o.b * o.b, dy := o.a * o.a,
    sx := 2 * o.b * o.b * o.a, sy := 0, e := 0, ddx := 0 }

/-- The update of one pass of region 1: step y, and x inward on the threshold (R120). -/
def arc1Next (o : Oval) (t : Arc) : Arc :=
  let u : Arc := { t with Y := t.Y + 1, sy := t.sy + 2 * o.a * o.a, e := t.e + t.dy, dy := t.dy + 2 * o.a * o.a }
  if 2 * u.e + u.dx > 0 then
    { u with X := u.X - 1, sx := u.sx - 2 * o.b * o.b, e := u.e + u.dx, dx := u.dx + 2 * o.b * o.b }
  else u

/-- Region 1's loop (R120): at most `fuel` passes. -/
def region1 (p : Params) (o : Oval) : Nat → Arc → List PixelWrite
  | 0, _ => []
  | fuel + 1, t =>
    if t.sx ≥ t.sy then
      plot4 p o t.X t.Y ++ fill2 p o (o.x0 - t.X + 1) (o.x0 + t.X) t.Y ++ region1 p o fuel (arc1Next o t)
    else []

/-- Region 2 before its first pass (R120, R125). -/
def arc2Start (o : Oval) : Arc :=
  { X := 0, Y := o.b, dx := o.b * o.b, dy := (1 - 2 * o.b) * o.a * o.a,
    sx := 0, sy := 2 * o.a * o.a * o.b, e := 0, ddx := 0 }

/-- The x step that begins the update of a pass of region 2 (R120). -/
def arc2Step (o : Oval) (t : Arc) : Arc :=
  { t with X := t.X + 1, sx := t.sx + 2 * o.b * o.b, e := t.e + t.dx, dx := t.dx + 2 * o.b * o.b, ddx := t.ddx + 1 }

/-- The walk leaves its row after this x step (R120, R125). -/
abbrev Arc.LeavesRow (u : Arc) : Prop := 2 * u.e + u.dy > 0

/-- The update of one pass of region 2: step x, and y inward on the threshold (R120). -/
def arc2Next (o : Oval) (t : Arc) : Arc :=
  let u := arc2Step o t
  if u.LeavesRow then
    { u with Y := u.Y - 1, sy := u.sy - 2 * o.a * o.a, e := u.e + u.dy, dy := u.dy + 2 * o.a * o.a, ddx := 0 }
  else u

/-- The fill of a pass of region 2: the row, when the walk leaves it, with `w = X - ddx - 1` (R120, R125). -/
def fillLeft (p : Params) (o : Oval) (t : Arc) : List PixelWrite :=
  let u := arc2Step o t
  if u.LeavesRow then fill2 p o (o.x0 - (u.X - u.ddx - 1)) (o.x0 + (u.X - u.ddx - 1) + 1) u.Y else []

/-- Region 2's loop (R120): at most `fuel` passes. -/
def region2 (p : Params) (o : Oval) : Nat → Arc → List PixelWrite
  | 0, _ => []
  | fuel + 1, t =>
    if t.sy ≥ t.sx then plot4 p o t.X t.Y ++ fillLeft p o t ++ region2 p o fuel (arc2Next o t) else []

/-- Passes that region 1 never exhausts: `sy` grows by `2a²` a pass and `sx` never exceeds `2ab²`
(DEDUCED from R120; notes/assumptions/6.md). -/
def fuel1 (o : Oval) : Nat := (o.b * o.b).toNat + 2

/-- Passes that region 2 never exhausts: `sx` grows by `2b²` a pass and `sy` never exceeds `2a²b`. -/
def fuel2 (o : Oval) : Nat := (o.a * o.a).toNat + 2

/-- The ellipse of a command's operands and draw colors: `a = width >> 1`, `b = height >> 1`, centre
`(x + a, y + b)` (R121); the stroke is `RawColor(dc1)` also for `dc1 = 0`, the fill is there unless `dc0 = 0`
(R123). -/
def ovalOf (dc : BitVec 16) (x y width height : Int) : Oval :=
  { x0 := x + asr width 1, y0 := y + asr height 1, a := asr width 1, b := asr height 1,
    stroke := rawColor (nib dc 1), fill := shapeColor (nib dc 0) }

/-- The writes of an ellipse with semi-axes above 0: region 1, then region 2 (R120). -/
def arcWrites (p : Params) (o : Oval) : List PixelWrite :=
  region1 p o (fuel1 o) (arc1Start o) ++ region2 p o (fuel2 o) (arc2Start o)

/-- The writes of OVAL (R120): none under the sentinel (R122), none if a semi-axis is not above 0 (R121). -/
def ovalWrites (p : Params) (dc : BitVec 16) (x y width height : Int) : List PixelWrite :=
  if p.ellipseFSentinel = true ∧ nib dc 1 = 0xF then []
  else
    let o := ovalOf dc x y width height
    if o.a ≤ 0 ∨ o.b ≤ 0 then [] else arcWrites p o

/-- OVAL: an ellipse with stroke `dc1` and optional fill `dc0` (R120). -/
def execOval (s : State) : Out :=
  .next (s.latch.paint (ovalWrites s.params s.latch.dc (sArg s 0) (sArg s 1) (sArg s 2) (sArg s 3)))

end Sys2Proof.Machine
end

