-- ==== Sys2Proof/Machine/Line.lean ====
section
/-! DEFINITION. LINE (spec/44_line.md rules R130 to R134): the Bresenham-style walk over exact integers. -/

namespace Sys2Proof.Machine

open Sys2Proof

/-- Two endpoints (R130). -/
structure Segment where
  x1 : Int
  y1 : Int
  x2 : Int
  y2 : Int
deriving DecidableEq, Repr

/-- Normalisation to `y1 ≤ y2`, swapping both endpoints together (R131). -/
def Segment.normalise (g : Segment) : Segment := if g.y1 > g.y2 then ⟨g.x2, g.y2, g.x1, g.y1⟩ else g

/-- `dx = abs(x2 - x1)` (R130). -/
def Segment.dx (g : Segment) : Int := ((g.x2 - g.x1).natAbs : Int)

/-- `dy = y2 - y1`, not negative for a normalised segment (R130). -/
def Segment.dy (g : Segment) : Int := g.y2 - g.y1

/-- `sx = sign(x2 - x1)` (R133). -/
def Segment.sx (g : Segment) : Int := (g.x2 - g.x1).sign

/-- `tdiv(dx > dy ? dx : -dy, 2)`, truncated toward zero (R132). -/
def Segment.err0 (g : Segment) : Int := Int.tdiv (if g.dx > g.dy then g.dx else -g.dy) 2

/-- The variables of the walk (R130). -/
structure Walk where
  x : Int
  y : Int
  err : Int
deriving DecidableEq, Repr

/-- The update of one pass; both tests read the error from the start of the pass (R134). -/
def lineNext (g : Segment) (t : Walk) : Walk :=
  let moveX : Bool := decide (t.err > -g.dx)
  let moveY : Bool := decide (t.err < g.dy)
  { x := if moveX then t.x + g.sx else t.x
    y := if moveY then t.y + 1 else t.y
    err := t.err - (if moveX then g.dy else 0) + (if moveY then g.dx else 0) }

/-- The points that the walk plots, in order, in at most `fuel` passes; it stops after the endpoint (R130). -/
def lineWalk (g : Segment) : Nat → Walk → List (Int × Int)
  | 0, _ => []
  | fuel + 1, t =>
    (t.x, t.y) :: (if t.x = g.x2 ∧ t.y = g.y2 then [] else lineWalk g fuel (lineNext g t))

/-- Passes that the walk never exhausts: each moves a coordinate toward the endpoint (DEDUCED from R135;
notes/assumptions/6.md). -/
def lineFuel (g : Segment) : Nat := (g.dx + g.dy).toNat + 1

/-- The points of a normalised segment. -/
def linePoints (g : Segment) : List (Int × Int) := lineWalk g (lineFuel g) ⟨g.x1, g.y1, g.err0⟩

/-- The writes of LINE under draw colors `dc` (R130). -/
def lineWrites (p : Params) (dc : BitVec 16) (x1 y1 x2 y2 : Int) : List PixelWrite :=
  match shapeColor (nib dc 0) with
  | none => []
  | some c => (linePoints (Segment.normalise ⟨x1, y1, x2, y2⟩)).flatMap fun q => pixelClipped p c q.1 q.2

/-- LINE: a line in the stroke color `dc0`, both endpoints included (R130). -/
def execLine (s : State) : Out :=
  .next (s.latch.paint (lineWrites s.params s.latch.dc (sArg s 0) (sArg s 1) (sArg s 2) (sArg s 3)))

end Sys2Proof.Machine
end

