-- ==== Sys2Proof/Machine/PixelStore.lean ====
section
/-! DEFINITION. The Pixel Store's commands CLEAR, WRITE_U and WRITE_C (spec/40_pixel_store.md rules R84 to R86). -/

namespace Sys2Proof.Machine

open Sys2Proof

/-- CLEAR: `for i in [0, FB_BYTES): MemWrite(FB_BASE + i, 1, 0)` (R84). -/
def execClear (s : State) : Out :=
  .next (s.setMem (fillBytes 0 s.params.fbBytes s.params.fbBase s.mem))

/-- WRITE_U: the unchecked write, or PRECOND outside the canvas (R85). -/
def execWriteU (c : Color) (s : State) : Out :=
  if InCanvas s.params (sArg s 0) (sArg s 1) then .next (s.paint [⟨c, sArg s 0, sArg s 1⟩])
  else .next (s.raise .precond)

/-- WRITE_C: the clipped write (R86). -/
def execWriteC (c : Color) (s : State) : Out :=
  .next (s.paint (pixelClipped s.params c (sArg s 0) (sArg s 1)))

end Sys2Proof.Machine
end

