-- ==== Sys2Proof/Machine/Spans.lean ====
section
/-! DEFINITION. FILL_ROW, HLINE, VLINE and RECT (spec/42_spans_lines_rect.md). -/

namespace Sys2Proof.Machine

open Sys2Proof

/-- FILL_ROW's precondition: the span is not empty and lies in the canvas (R101). -/
abbrev SpanInCanvas (p : Params) (x0 y x1 : Int) : Prop :=
  0 ≤ x0 ∧ x0 < x1 ∧ x1 ≤ (p.width : Int) ∧ 0 ≤ y ∧ y < (p.height : Int)

/-- FILL_ROW: the span in an output color, or PRECOND (R101). -/
def execFillRow (c : Color) (s : State) : Out :=
  if SpanInCanvas s.params (sArg s 0) (sArg s 1) (sArg s 2) then
    .next (s.paint (span c (sArg s 0) (sArg s 1) (sArg s 2)))
  else .next (s.raise .precond)

/-- The writes of HLINE under draw colors `dc` (R103). -/
def hlineWrites (p : Params) (dc : BitVec 16) (x y len : Int) : List PixelWrite :=
  match shapeColor (nib dc 0) with
  | none => []
  | some c => spanClipped p c x y (x + len)

/-- HLINE: a horizontal line in the stroke color `dc0` (R103). -/
def execHline (s : State) : Out :=
  .next (s.latch.paint (hlineWrites s.params s.latch.dc (sArg s 0) (sArg s 1) (sArg s 2)))

/-- The writes of VLINE under draw colors `dc` (R104). -/
def vlineWrites (p : Params) (dc : BitVec 16) (x y len : Int) : List PixelWrite :=
  if y + len ≤ 0 ∨ (p.height : Int) ≤ y ∨ x < 0 ∨ (p.width : Int) ≤ x then []
  else match shapeColor (nib dc 0) with
    | none => []
    | some c => column c x (max 0 y) (min (p.height : Int) (y + len))

/-- VLINE: a vertical line in the stroke color `dc0` (R104). -/
def execVline (s : State) : Out :=
  .next (s.latch.paint (vlineWrites s.params s.latch.dc (sArg s 0) (sArg s 1) (sArg s 2)))

/-- RECT's fill: the rows of `[fx0, fx1) × [fy0, fy1)`, a row a span (R105 step 1). -/
def fillWrites (c : Color) (fx0 fy0 fx1 fy1 : Int) : List PixelWrite :=
  if fx0 < fx1 then (intRange fy0 fy1).flatMap fun yy => span c fx0 yy fx1 else []

/-- RECT's stroke, in the order of R105 step 2: left column, right column, top row, bottom row, each drawn only
if its line lies on the canvas. `[sx, ex)` and `sy` are the clamped bounds. -/
def strokeWrites (p : Params) (c : Color) (x y width height sx sy ex : Int) : List PixelWrite :=
  let cy1 := min (p.height : Int) (y + height - 1)
  (if 0 ≤ x ∧ x < (p.width : Int) then column c x sy cy1 else []) ++
  (if 0 ≤ x + width - 1 ∧ x + width - 1 < (p.width : Int) then column c (x + width - 1) sy cy1 else []) ++
  (if 0 ≤ y ∧ y < (p.height : Int) then span c sx y ex else []) ++
  (if 0 ≤ y + height - 1 ∧ y + height - 1 < (p.height : Int) then span c sx (y + height - 1) ex else [])

/-- The writes of RECT with fill `f` and stroke `st`: fill under, stroke over (R105). With a stroke the fill is
inset by 1 from the unclamped rectangle. -/
def rectWrites (p : Params) (f st : Option Color) (x y width height : Int) : List PixelWrite :=
  let sx := max 0 x
  let sy := max 0 y
  let ex := min (p.width : Int) (x + width)
  let ey := min (p.height : Int) (y + height)
  if sx ≥ ex ∨ sy ≥ ey then []
  else
    (match f, st with
      | none, _ => []
      | some c, none => fillWrites c sx sy ex ey
      | some c, some _ =>
        fillWrites c (max 0 (x + 1)) (max 0 (y + 1)) (min (p.width : Int) (x + width - 1))
          (min (p.height : Int) (y + height - 1))) ++
    (match st with
      | none => []
      | some c => strokeWrites p c x y width height sx sy ex)

/-- RECT: a rectangle with the fill color `dc0` and the border color `dc1` (R105). -/
def execRect (s : State) : Out :=
  .next (s.latch.paint (rectWrites s.params (shapeColor (nib s.latch.dc 0)) (shapeColor (nib s.latch.dc 1))
    (sArg s 0) (sArg s 1) (sArg s 2) (sArg s 3)))

end Sys2Proof.Machine
end

