-- ==== Sys2Proof/Machine/Blit.lean ====
section
/-! DEFINITION. The Sprite Sampler/Blitter (spec/46_sprite_blit.md): the sampler shared by BLIT and TEXT, and BLIT. -/

namespace Sys2Proof.Machine

open Sys2Proof

/-- The arguments of the sampler procedure `Blit` (R153). -/
structure Sprite where
  base : Int
  dstX : Int
  dstY : Int
  width : Int
  height : Int
  srcX : Int
  srcY : Int
  srcStride : Int
  bpp2 : Bool
  flipX : Bool
  flipY : Bool
  rotate : Bool
deriving DecidableEq, Repr

/-- The extents after the swap that `ROTATE_DIMS = SOURCE` asks for in a rotated blit: the first line of R153
(R156). -/
def Sprite.oriented (p : Params) (b : Sprite) : Sprite :=
  if b.rotate = true ∧ p.rotateDims = .source then { b with width := b.height, height := b.width } else b

/-- `cxmin` (R151). -/
def Sprite.cxmin (b : Sprite) : Int := max 0 (-b.dstX)

/-- `cymin` (R151). -/
def Sprite.cymin (b : Sprite) : Int := max 0 (-b.dstY)

/-- `cxmax` (R151). -/
def Sprite.cxmax (p : Params) (b : Sprite) : Int := min b.width ((p.width : Int) - b.dstX)

/-- `cymax` (R151). -/
def Sprite.cymax (p : Params) (b : Sprite) : Int := min b.height ((p.height : Int) - b.dstY)

/-- The local pixels `(c, r)` of the clip window in row-major order (R151, R159); none if the window is empty. -/
def Sprite.window (p : Params) (b : Sprite) : List (Int × Int) :=
  (intRange b.cymin (b.cymax p)).flatMap fun r => (intRange b.cxmin (b.cxmax p)).map fun c => (c, r)

/-- `Mirror(t, (ext, lo, hi))` (R153, R157). -/
def mirror (p : Params) (t ext lo hi : Int) : Int :=
  match p.flipBasis with
  | .declared => ext - 1 - t
  | .clipped => lo + hi - 1 - t

/-- The sample coordinates of local pixel `(c, r)` before `(srcX, srcY)` is added: the axis mapping and the flips
(R152, R153). `rotate` swaps the axes and inverts `flipX`. -/
def Sprite.sampleXY (p : Params) (b : Sprite) (c r : Int) : Int × Int :=
  let mc := mirror p c b.width b.cxmin (b.cxmax p)
  let mr := mirror p r b.height b.cymin (b.cymax p)
  if b.rotate then (if b.flipX then r else mr, if b.flipY then mc else c)
  else (if b.flipX then mc else c, if b.flipY then mr else r)

/-- `bi = Y*srcStride + X`, the bit index of the sample for local pixel `(c, r)` (R154). -/
def Sprite.bitIndex (p : Params) (b : Sprite) (c r : Int) : Int :=
  (b.srcY + (b.sampleXY p c r).2) * b.srcStride + (b.srcX + (b.sampleXY p c r).1)

/-- The host address of the sample's byte (R154). -/
def Sprite.byteAddr (p : Params) (b : Sprite) (c r : Int) : Int :=
  b.base + (if b.bpp2 then asr (b.bitIndex p c r) 2 else asr (b.bitIndex p c r) 3)

/-- The logical index that the bit index `bi` selects in its byte: most significant pixel first (R41, R154). -/
def sampleField (bpp2 : Bool) (v : Byte) (bi : Int) : Color :=
  if bpp2 then (v >>> (6 - (lowBits bi 2 <<< 1))).setWidth 2
  else ((v >>> (7 - lowBits bi 3)).setWidth 1).setWidth 2

/-- `Sample` (R154) for a sprite in host memory; a byte inside the framebuffer is free (R48). -/
def Sprite.sample (s : State) (serial glyph : Nat) (b : Sprite) (c r : Int) : Color :=
  sampleField b.bpp2 (s.sourceRead ⟨serial, .sample glyph c r⟩ (b.byteAddr s.params c r)) (b.bitIndex s.params c r)

/-- The blit samples a framebuffer byte: the case of R48. -/
def Sprite.samplesFramebuffer (p : Params) (b : Sprite) : Bool :=
  (b.window p).any fun q => sourceInFramebuffer p (b.byteAddr p q.1 q.2)

/-- The writes of the sampler, given each local pixel's logical index: each is resolved through the latched
draw colors, a transparent one writes nothing (R155). When the command reads framebuffer bytes as source data
(`tainted`), every pixel it writes has a free value in `[0, 3]` (R48, U3). -/
def Sprite.writes (p : Params) (dc : BitVec 16) (b : Sprite) (idx : Int → Int → Color) (tainted : Bool)
    (serial glyph : Nat) : List PixelWrite :=
  (b.window p).filterMap fun q =>
    (spriteColor dc (idx q.1 q.2)).map fun col =>
      ⟨if tainted then Config.freeColor ⟨serial, .sample glyph q.1 q.2⟩ else col, b.dstX + q.1, b.dstY + q.2⟩

/-- The sampler call of a BLIT command, with its operands (R150) and its extents oriented (R153). -/
def blitSprite (s : State) (bpp2 flipX flipY rotate : Bool) : Sprite :=
  Sprite.oriented s.params
    { base := uArg s 0, dstX := sArg s 1, dstY := sArg s 2, width := sArg s 3, height := sArg s 4,
      srcX := sArg s 5, srcY := sArg s 6, srcStride := sArg s 7,
      bpp2 := bpp2, flipX := flipX, flipY := flipY, rotate := rotate }

/-- The writes of BLIT in a state whose draw colors are latched (R150). -/
def blitWrites (s : State) (b : Sprite) : List PixelWrite :=
  b.writes s.params s.dc (b.sample s s.draws 0) (b.samplesFramebuffer s.params) s.draws 0

/-- BLIT: sample a packed bitmap and draw it through the draw colors (R150). -/
def execBlit (bpp2 flipX flipY rotate : Bool) (s : State) : Out :=
  .next (s.latch.paint (blitWrites s.latch (blitSprite s bpp2 flipX flipY rotate)))

end Sys2Proof.Machine
end

