-- ==== Sys2Proof/Machine/Text.lean ====
section
/-! DEFINITION. TEXT (spec/45_text.md rules R140 to R144). -/

namespace Sys2Proof.Machine

open Sys2Proof

/-- What a code means (R142). -/
inductive Token where
  | terminator
  | newline
  | glyph (g : Int)
deriving DecidableEq, Repr

/-- `Classify(code)` (R142). -/
def classify (code : Byte) : Token :=
  if code = 0 then .terminator else if code = 10 then .newline else .glyph ((code.toNat : Int) - 32)

/-- The host address of code `i` (R140). -/
def codeAddr (ptr : Int) (i : Nat) : Int := ptr + (i : Int)

/-- Code `i` of a string at `ptr` (R140). -/
def readCode (s : State) (ptr : Int) (i : Nat) : Byte := s.sourceRead ⟨s.draws, .code i⟩ (codeAddr ptr i)

/-- The codes that the command reads, each with its place, from place `i` on: at most `n`, up to a terminator,
which is read too and ends the string (R140). -/
def textTokens (code : Nat → Byte) : Nat → Nat → List (Nat × Token)
  | 0, _ => []
  | n + 1, i =>
    match classify (code i) with
    | .terminator => [(i, .terminator)]
    | t => (i, t) :: textTokens code n (i + 1)

/-- A glyph with its code's place and its top-left corner. -/
structure PlacedGlyph where
  place : Nat
  g : Int
  cx : Int
  cy : Int
deriving DecidableEq, Repr

/-- The cursor's walk: a glyph advances x by 8, a newline advances y by 8 and resets x to the starting `x`
(R141). -/
def placeGlyphs (x : Int) : List (Nat × Token) → Int → Int → List PlacedGlyph
  | [], _, _ => []
  | (_, .terminator) :: _, _, _ => []
  | (_, .newline) :: ts, _, cy => placeGlyphs x ts x (cy + 8)
  | (i, .glyph g) :: ts, cx, cy => ⟨i, g, cx, cy⟩ :: placeGlyphs x ts (cx + 8) cy

/-- The sampler call of `GlyphBlit(g, cx, cy)` (R143). -/
def glyphSprite (p : Params) (q : PlacedGlyph) : Sprite :=
  { base := (p.fontBase : Int), dstX := q.cx, dstY := q.cy, width := 8, height := 8,
    srcX := 0, srcY := 8 * q.g, srcStride := 8, bpp2 := false, flipX := false, flipY := false, rotate := false }

/-- The glyph is in the atlas (R144). -/
abbrev InAtlas (p : Params) (g : Int) : Prop := 0 ≤ g ∧ g < (p.fontGlyphs : Int)

/-- A glyph's sample: the atlas bit, or a free bit for a glyph outside the atlas (R144). -/
def glyphSample (s : State) (q : PlacedGlyph) (c r : Int) : Color :=
  if InAtlas s.params q.g then (glyphSprite s.params q).sample s s.draws q.place c r
  else (Config.freeBit ⟨s.draws, .sample q.place c r⟩).setWidth 2

/-- Drawing the glyph reads a framebuffer byte (R48). A glyph outside the atlas reads no byte (R144, R154). -/
def glyphReadsFramebuffer (p : Params) (q : PlacedGlyph) : Bool :=
  decide (InAtlas p q.g) && (glyphSprite p q).samplesFramebuffer p

/-- The tokens of a TEXT command in a state whose draw colors are latched (R140). -/
def textOf (s : State) : List (Nat × Token) := textTokens (readCode s (uArg s 0)) (sArg s 1).toNat 0

/-- The glyphs of a TEXT command, in order (R140). -/
def textGlyphs (s : State) : List PlacedGlyph := placeGlyphs (sArg s 2) (textOf s) (sArg s 2) (sArg s 3)

/-- The command reads a framebuffer byte as a code or as a glyph byte: the case of R48. -/
def textReadsFramebuffer (s : State) : Bool :=
  (textOf s).any (fun t => sourceInFramebuffer s.params (codeAddr (uArg s 0) t.1)) ||
  (textGlyphs s).any (glyphReadsFramebuffer s.params)

/-- The writes of TEXT in a state whose draw colors are latched (R140, R143). -/
def textWrites (s : State) : List PixelWrite :=
  (textGlyphs s).flatMap fun q =>
    (glyphSprite s.params q).writes s.params s.dc (glyphSample s q) (textReadsFramebuffer s) s.draws q.place

/-- TEXT: lay out a string of codes as 8×8 glyphs (R140). -/
def execText (s : State) : Out := .next (s.latch.paint (textWrites s.latch))

end Sys2Proof.Machine
end

