-- ==== Sys2Proof/Machine/Dispatch.lean ====
section
/-! DEFINITION. The meaning of each command (spec/30_encoding.md rule R63): one arm a constructor. -/

namespace Sys2Proof.Machine

open Sys2Proof

def exec (i : Instr) (s : State) : Host.Outcome State Fault Refusal :=
  match i with
  | .clear => Sys2Proof.Machine.execClear s
  | .writeU c => Sys2Proof.Machine.execWriteU c s
  | .writeC c => Sys2Proof.Machine.execWriteC c s
  | .fillRow c => Sys2Proof.Machine.execFillRow c s
  | .hline => Sys2Proof.Machine.execHline s
  | .vline => Sys2Proof.Machine.execVline s
  | .rect => Sys2Proof.Machine.execRect s
  | .oval => Sys2Proof.Machine.execOval s
  | .line => Sys2Proof.Machine.execLine s
  | .text => Sys2Proof.Machine.execText s
  | .blit bpp2 flipX flipY rotate => Sys2Proof.Machine.execBlit bpp2 flipX flipY rotate s

end Sys2Proof.Machine
end

