-- ==== Sys2Proof/Machine/Flags.lean ====
section
/-! DEFINITION. The flags of the block: the two sticky bits of `STATUS` and its reserved bits
(spec/10_state.md rules R22 and R30). -/

namespace Sys2Proof.Machine

open Sys2Proof

/-- `STATUS.ILLEGAL` is set (R22). -/
def State.illegal (s : State) : Bool := s.status.getLsbD 0

/-- `STATUS.PRECOND` is set (R22). -/
def State.precond (s : State) : Bool := s.status.getLsbD 1

/-- The bits of `STATUS` that the spec names (R22). -/
def statusMask : Word := 0x3

/-- What a read of `STATUS` returns: bits 31:2 "read as 0" (R22). -/
def State.statusRead (s : State) : Word := s.status &&& statusMask

end Sys2Proof.Machine
end

