-- ==== Sys2Proof/Machine/Port.lean ====
section
/-! DEFINITION. The command port and the host's accesses (spec/30_encoding.md rules R60 and R62, spec/10_state.md
rules R22 and R23, spec/70_reset_and_hazards.md rules R190 to R197). -/

namespace Sys2Proof.Machine

open Sys2Proof

/-- A register of the port (R60). -/
inductive PortReg where
  | cmd
  | status
  | arg (i : Fin 8)
  | reserved
deriving DecidableEq, Repr

/-- The register map (R60): the register at an offset, if the offset is a register's. -/
def portReg (off : Nat) : Option PortReg :=
  if off % 4 ≠ 0 then none
  else if off = 0x00 then some .cmd
  else if off = 0x04 then some .status
  else if off ≤ 0x24 then some (.arg (Fin.ofNat 8 ((off - 0x08) / 4)))
  else if off ≤ 0x3C then some .reserved
  else none

/-- The register that an access of `bytes` bytes at `addr` names. Only an aligned 32-bit access to the port's
registers is one (R60, R197). -/
def portAccess (p : Params) (addr bytes : Nat) : Option PortReg :=
  if bytes = 4 ∧ p.portBase ≤ addr then portReg (addr - p.portBase) else none

/-- A host write of `w` to `CMD`: `CMD` takes `w`, and the command that `w` selects runs to completion; an
illegal word raises ILLEGAL and does nothing else (R62, R66, R170). -/
def issue (w : Word) (s : State) : Out :=
  match decode w with
  | .ok i => exec i (s.setCmd w)
  | .error _ => .next ((s.setCmd w).raise .illegal)

/-- A host write to a port register: `CMD` issues, `ARGi` takes the value, `STATUS` and the reserved offsets
ignore it (R60, R22). -/
def writePort (r : PortReg) (w : Word) (s : State) : Out :=
  match r with
  | .cmd => issue w s
  | .status => .next s
  | .arg i => .next (s.setArgs (s.args.set i w))
  | .reserved => .next s

/-- What a port register reads as (R60, R22, R23). -/
def readPort (r : PortReg) (s : State) : Word :=
  match r with
  | .cmd => s.cmd
  | .status => s.statusRead
  | .arg i => s.args.get i
  | .reserved => 0

/-- The argument registers after a reset: of unspecified content, so free values (R33, U12). -/
def freeArgs (n : Nat) : Args :=
  ⟨Config.freeWord ⟨n, .resetArg 0⟩, Config.freeWord ⟨n, .resetArg 1⟩, Config.freeWord ⟨n, .resetArg 2⟩,
   Config.freeWord ⟨n, .resetArg 3⟩, Config.freeWord ⟨n, .resetArg 4⟩, Config.freeWord ⟨n, .resetArg 5⟩,
   Config.freeWord ⟨n, .resetArg 6⟩, Config.freeWord ⟨n, .resetArg 7⟩⟩

/-- A reset in a run: `STATUS` is 0, `CMD`, `ARGi` and the latch take free values, host memory is not written
(R190, R191, U12). -/
def resetBlock (s : State) : State :=
  ((((s.setStatus 0).setCmd (Config.freeWord ⟨s.draws, .resetCmd⟩)).setArgs (freeArgs s.draws)).setDc
    ((Config.freeWord ⟨s.draws, .resetDc⟩).setWidth 16)).setDraws (s.draws + 1)

/-- The host writes a byte of host memory: not outside it, and not in the framebuffer (R196). -/
def hostWrite (a : Nat) (v : Byte) (s : State) : Out :=
  if s.params.hostMemSize ≤ a then .fault (.noHostByte a)
  else if Params.InFramebuffer s.params a then .refused .hostFramebufferWrite
  else .next (s.setMem (s.mem.write a v))

/-- The host reads a byte of host memory, the framebuffer's bytes among them (R26). -/
def hostRead (a : Nat) (s : State) : Out :=
  if s.params.hostMemSize ≤ a then .fault (.noHostByte a)
  else .next (s.setHostData ((s.mem.read a).setWidth 32))

/-- One action of the host. -/
def act (h : HostAction) (s : State) : Out :=
  match h with
  | .portWrite addr bytes w =>
    match portAccess s.params addr bytes with
    | some r => writePort r w s
    | none => .refused .portAccess
  | .portRead addr bytes =>
    match portAccess s.params addr bytes with
    | some r => .next (s.setHostData (readPort r s))
    | none => .refused .portAccess
  | .memWrite a v => hostWrite a v s
  | .memRead a => hostRead a s
  | .reset => .next (resetBlock s)

/-- What one step does: the host's next action, with the command it issues run to completion (R46, R50, R62).
With no action pending the block is idle and "waits for a write to `CMD`" (R192). Parameters that break R7's
constraints are refused (U18). -/
def hostStep (s : State) : Out :=
  if s.params.WF then
    match s.pending with
    | [] => .next s
    | h :: rest => act h (s.setPending rest)
  else .refused .badParameters

end Sys2Proof.Machine
end

