-- ==== Sys2Proof/Machine/Step.lean ====
section
/-! DEFINITION. One step of the machine. -/

namespace Sys2Proof.Machine

open Sys2Proof

/-- One step: the host's next action as one indivisible step (R46, R50). -/
def step (s : State) : Host.Outcome State Fault Refusal := hostStep s

/-- The state in which the host's next action is the write to `CMD` of the word with bits `w`. The block fetches
no instructions (R21): a command comes to it by that write alone (R62; notes/assumptions/4.md). -/
def State.withFetchWord (s : State) (nbits w : Nat) : State :=
  { s with pending := .portWrite s.params.portBase 4 (BitVec.ofNat 32 (w % 2 ^ nbits)) :: s.pending }

end Sys2Proof.Machine
end

