-- ==== Sys2Proof/Machine/Assembler.lean ====
section
/-! DEFINITION. The assembly syntax for command streams (spec/30_encoding.md rules R70 and R71): a statement, the host
actions it stands for, and the reading of a line of text. -/

namespace Sys2Proof.Machine

open Sys2Proof

/-- One statement. -/
inductive Stmt where
  /-- A command with its argument-register operands in the order of R63 (R70). -/
  | command (i : Instr) (operands : List Int)
  /-- The pseudo-instruction `SETDC v` (R71). -/
  | setDc (v : Nat)
  /-- The directive `BYTES addr: b0, b1, ...` (R71). -/
  | bytes (addr : Nat) (values : List Nat)
deriving DecidableEq, Repr

/-- How many argument registers a command names (R63). -/
def operandCount : Instr → Nat
  | .clear => 0
  | .writeU _ => 2
  | .writeC _ => 2
  | .fillRow _ => 3
  | .hline => 3
  | .vline => 3
  | .rect => 4
  | .oval => 4
  | .line => 4
  | .text => 4
  | .blit _ _ _ _ => 8

/-- A value that a 32-bit two's-complement pattern can hold, read as signed or as unsigned (R67, R70). -/
abbrev Fits32 (v : Int) : Prop := -2147483648 ≤ v ∧ v < 4294967296

/-- A statement is well formed: as many operands as its command names, each fitting 32 bits; `v` in
`0..0xFFFF`; byte values below 256 (R70, R71). -/
def Stmt.wf : Stmt → Bool
  | .command i ops => ops.length == operandCount i && ops.all fun v => decide (Fits32 v)
  | .setDc v => decide (v ≤ 0xFFFF)
  | .bytes _ bs => bs.all fun b => decide (b < 256)

/-- The port writes of the operands to `ARG0`, `ARG1`, ... in order, from `ARGk` on (R70). -/
def argWrites (p : Params) : Nat → List Int → List HostAction
  | _, [] => []
  | k, v :: vs => .portWrite (p.portBase + 0x08 + 4 * k) 4 (BitVec.ofInt 32 v) :: argWrites p (k + 1) vs

/-- The argument registers after those writes, from `ARGk` on. -/
def loadArgs : Args → Nat → List Int → Args
  | r, _, [] => r
  | r, k, v :: vs => loadArgs (r.set (Fin.ofNat 8 k) (BitVec.ofInt 32 v)) (k + 1) vs

/-- The host writes of bytes at consecutive addresses (R71). -/
def byteWrites : Nat → List Nat → List HostAction
  | _, [] => []
  | a, b :: bs => .memWrite a (BitVec.ofNat 8 b) :: byteWrites (a + 1) bs

/-- The host actions that a statement stands for (R70, R71). -/
def assemble (p : Params) : Stmt → List HostAction
  | .command i ops => argWrites p 0 ops ++ [.portWrite p.portBase 4 (encode i)]
  | .setDc v => byteWrites p.dcAddr [v &&& 0xFF, (v >>> 8) &&& 0xFF]
  | .bytes a bs => byteWrites a bs

/-! ## Reading a line -/

/-- Why a line is no statement. -/
inductive AsmError where
  | unknownMnemonic
  | badSuffix
  | badOperand
deriving DecidableEq, Repr

/-- White space between the parts of a line. -/
def isBlank (c : Char) : Bool := c == ' ' || c == '\t'

/-- The text without white space at its ends. -/
def trim (t : List Char) : List Char := ((t.dropWhile isBlank).reverse.dropWhile isBlank).reverse

/-- The pieces of a text between the separators `c`. -/
def pieces (c : Char) : List Char → List (List Char)
  | [] => [[]]
  | d :: t =>
    if d = c then [] :: pieces c t
    else match pieces c t with
      | [] => [[d]]
      | q :: qs => (d :: q) :: qs

/-- The value of a digit in base `base`. -/
def digit (base : Nat) (c : Char) : Option Nat :=
  let v :=
    if 48 ≤ c.toNat ∧ c.toNat ≤ 57 then c.toNat - 48
    else if 65 ≤ c.toNat ∧ c.toNat ≤ 70 then c.toNat - 55
    else if 97 ≤ c.toNat ∧ c.toNat ≤ 102 then c.toNat - 87
    else base
  if v < base then some v else none

/-- The value of a text of digits, most significant first. -/
def digits (base : Nat) : Nat → List Char → Option Nat
  | n, [] => some n
  | n, c :: t => (digit base c).bind fun d => digits base (n * base + d) t

/-- A decimal or `0x` hexadecimal number (R70). -/
def parseNat (t : List Char) : Option Nat :=
  match t with
  | [] => none
  | ['0', 'x'] => none
  | '0' :: 'x' :: h => digits 16 0 h
  | _ => digits 10 0 t

/-- An integer operand; it may be negative (R70). -/
def parseInt (t : List Char) : Option Int :=
  match trim t with
  | '-' :: u => (parseNat u).map fun n => -(n : Int)
  | u => (parseNat u).map fun n => (n : Int)

/-- A natural-number operand. -/
def parseNatOperand (t : List Char) : Option Nat := parseNat (trim t)

/-- The operands of a statement, separated by commas; an empty text has none. -/
def parseOperands (t : List Char) : Option (List Int) :=
  match trim t with
  | [] => some []
  | u => (pieces ',' u).mapM parseInt

/-- BLIT's flags: dot-suffixes in any order, each at most once (R70). -/
def parseSuffixes : List (List Char) → Instr → Option Instr
  | [], i => some i
  | q :: qs, .blit bpp2 flipX flipY rotate =>
    if q = ['2', 'B', 'P', 'P'] ∧ bpp2 = false then parseSuffixes qs (.blit true flipX flipY rotate)
    else if q = ['F', 'L', 'I', 'P', 'X'] ∧ flipX = false then parseSuffixes qs (.blit bpp2 true flipY rotate)
    else if q = ['F', 'L', 'I', 'P', 'Y'] ∧ flipY = false then parseSuffixes qs (.blit bpp2 flipX true rotate)
    else if q = ['R', 'O', 'T', 'A', 'T', 'E'] ∧ rotate = false then parseSuffixes qs (.blit bpp2 flipX flipY true)
    else none
  | _ :: _, _ => none

/-- A command whose operands are all argument registers. -/
def plainStmt (i : Instr) (ops : List Int) : Option Stmt :=
  if (Stmt.command i ops).wf then some (.command i ops) else none

/-- A command that takes its color, in `0..3`, first (R70). -/
def coloredStmt (i : Color → Instr) : List Int → Option Stmt
  | [] => none
  | c :: ops => if 0 ≤ c ∧ c ≤ 3 then plainStmt (i (BitVec.ofInt 2 c)) ops else none

/-- `SETDC v` (R71). -/
def setDcStmt (t : List Char) : Option Stmt :=
  (parseNatOperand t).bind fun v => if (Stmt.setDc v).wf then some (.setDc v) else none

/-- `BYTES addr: b0, b1, ...` (R71). -/
def bytesStmt (t : List Char) : Option Stmt :=
  match pieces ':' t with
  | [a, bs] =>
    (parseNatOperand a).bind fun addr =>
      ((pieces ',' bs).mapM parseNatOperand).bind fun values =>
        if (Stmt.bytes addr values).wf then some (.bytes addr values) else none
  | _ => none

/-- The statement of a mnemonic without suffixes and the text of its operands, if the mnemonic is one of R63's
or R71's. -/
def stmtOf (mnemonic : List Char) (rest : List Char) : Option (Option Stmt) :=
  let ops := parseOperands rest
  if mnemonic = ['C', 'L', 'E', 'A', 'R'] then some (ops.bind (plainStmt .clear))
  else if mnemonic = ['W', 'R', 'I', 'T', 'E', '_', 'U'] then some (ops.bind (coloredStmt .writeU))
  else if mnemonic = ['W', 'R', 'I', 'T', 'E', '_', 'C'] then some (ops.bind (coloredStmt .writeC))
  else if mnemonic = ['F', 'I', 'L', 'L', '_', 'R', 'O', 'W'] then some (ops.bind (coloredStmt .fillRow))
  else if mnemonic = ['H', 'L', 'I', 'N', 'E'] then some (ops.bind (plainStmt .hline))
  else if mnemonic = ['V', 'L', 'I', 'N', 'E'] then some (ops.bind (plainStmt .vline))
  else if mnemonic = ['R', 'E', 'C', 'T'] then some (ops.bind (plainStmt .rect))
  else if mnemonic = ['O', 'V', 'A', 'L'] then some (ops.bind (plainStmt .oval))
  else if mnemonic = ['L', 'I', 'N', 'E'] then some (ops.bind (plainStmt .line))
  else if mnemonic = ['T', 'E', 'X', 'T'] then some (ops.bind (plainStmt .text))
  else if mnemonic = ['S', 'E', 'T', 'D', 'C'] then some (setDcStmt rest)
  else if mnemonic = ['B', 'Y', 'T', 'E', 'S'] then some (bytesStmt rest)
  else none

/-- One line: nothing (blank, or a comment after `;`), or a statement (R70). -/
def parseLine (t : List Char) : Except AsmError (Option Stmt) :=
  let line := trim (t.takeWhile fun c => c != ';')
  let head := line.takeWhile fun c => !isBlank c
  let rest := line.dropWhile fun c => !isBlank c
  if line = [] then .ok none
  else match pieces '.' head with
    | ['B', 'L', 'I', 'T'] :: suffixes =>
      match parseSuffixes suffixes (.blit false false false false) with
      | none => .error .badSuffix
      | some i =>
        match (parseOperands rest).bind (plainStmt i) with
        | none => .error .badOperand
        | some st => .ok (some st)
    | [mnemonic] =>
      match stmtOf mnemonic rest with
      | none => .error .unknownMnemonic
      | some none => .error .badOperand
      | some (some st) => .ok (some st)
    | _ => .error .badSuffix

end Sys2Proof.Machine
end

