-- ==== Sys2Proof/Safety.lean ====
section
/-! DEFINITION. What a good state and a dutiful host are, and what it is for a command to paint pixels: the terms of
the safety, invariant and frame statements. -/

namespace Sys2Proof.Machine

open Sys2Proof

/-- The invariant of the machine: the parameters meet R7, the memory is in canonical form and lists only
addresses of host memory (R27), and the reserved bits of `STATUS` are 0 (R22). -/
abbrev State.Inv (s : State) : Prop :=
  s.params.WF ∧ s.mem.wf = true ∧ (∀ c ∈ s.mem, c.1 < s.params.hostMemSize) ∧ s.status &&& ~~~statusMask = 0

/-- What the memory of a state must meet for reads after writes to make sense: the parameters meet R7 and the
memory is in canonical form. Part of `Inv`. -/
abbrev State.Ready (s : State) : Prop := s.params.WF ∧ s.mem.wf = true

/-- `Pix(x, y)` in a state (R81). -/
def State.pixAt (s : State) (x y : Int) : Color := pix s.params s.mem x y

/-- From `s` to `t` nothing but host memory changed, and in host memory exactly these pixels: a canvas pixel
to which `color` gives a color holds it, every other canvas pixel is unchanged, and every byte that is not the
byte of a painted pixel (at the address that `PutPixel` stores to) is unchanged. That `t`'s latch is `s`'s is the
model's choice (log entry 18): R32 says that the latch does not survive a command. -/
def Paints (s t : State) (color : Int → Int → Option Color) : Prop :=
  t = s.setMem t.mem ∧
  (∀ x y, InCanvas s.params x y → t.pixAt x y = (color x y).getD (s.pixAt x y)) ∧
  (∀ a, (∀ x y, InCanvas s.params x y → color x y ≠ none → a ≠ pixelAddr s.params x y) →
    t.mem.read a = s.mem.read a)

/-- The host keeps its duties with this action: port accesses are aligned 32-bit accesses to the port (R197),
memory accesses lie in host memory (R27), and no write goes to the framebuffer (R196). -/
def HostAction.allowed (p : Params) : HostAction → Bool
  | .portWrite addr bytes _ => (portAccess p addr bytes).isSome
  | .portRead addr bytes => (portAccess p addr bytes).isSome
  | .memWrite a _ => decide (a < p.hostMemSize ∧ ¬ p.InFramebuffer a)
  | .memRead a => decide (a < p.hostMemSize)
  | .reset => true

/-- A state from which every pending action is one the host may make. -/
abbrev State.HostDutiful (s : State) : Prop := ∀ h ∈ s.pending, h.allowed s.params = true

/-! ## The terms of the statements about OVAL and TEXT -/

/-- `b²X² + a²Y² - a²b²`: 0 on the ellipse with semi-axes `a` and `b`, below 0 inside it, above 0 outside. -/
def ellipseErr (a b X Y : Int) : Int := b * b * X * X + a * a * Y * Y - a * a * b * b

/-- `(X, Y)`, counted from the centre, is a stroke point of the side arc, R120's region 1: `X` is the column that
the test `2*e + dx > 0` leaves on row `Y`, and `sx ≥ sy` there. -/
abbrev SideArc (a b X Y : Int) : Prop :=
  a * a * Y ≤ b * b * X ∧ -(b * b * (2 * X + 1)) < 2 * ellipseErr a b X Y ∧
    2 * ellipseErr a b X Y ≤ b * b * (2 * X - 1)

/-- `(X, Y)` is a stroke point of the top arc, R120's region 2: `Y` is the row that the test `2*e + dy > 0` leaves
in column `X`, and `sy ≥ sx` there. -/
abbrev TopArc (a b X Y : Int) : Prop :=
  b * b * X ≤ a * a * Y ∧ -(a * a * (2 * Y + 1)) < 2 * ellipseErr a b X Y ∧
    2 * ellipseErr a b X Y ≤ a * a * (2 * Y - 1)

/-- `(X, Y)` is left of the side arc's stroke on its row: in a fill span of region 1 (R124). -/
def SideFill (a b X Y : Int) : Prop := ∃ X1, SideArc a b X1 Y ∧ X < X1

/-- `(X, Y)` is left of the top arc's first stroke on its row, and the arc leaves that row: in a fill span of
region 2 (R125). -/
def TopFill (a b X Y : Int) : Prop :=
  (∃ X1, 0 ≤ X1 ∧ TopArc a b X1 Y ∧ a * a * (2 * Y - 1) < 2 * ellipseErr a b (X1 + 1) Y) ∧
  ∀ X1, 0 ≤ X1 → TopArc a b X1 Y → X < X1

/-- Code `i` of a TEXT command whose string lies in host memory (R140). -/
def State.textCode (s : State) (i : Nat) : Byte := s.mem.read ((uArg s 0).toNat + i)

/-- TEXT reads code `k`: it is one of the `len` codes, and no code before it is the terminator (R140). -/
def State.ReadsCode (s : State) (k : Nat) : Prop := (k : Int) < sArg s 1 ∧ ∀ i, i < k → s.textCode i ≠ 0

/-- TEXT draws a glyph for code `k` (R142). -/
def State.DrawsCode (s : State) (k : Nat) : Prop := s.ReadsCode k ∧ s.textCode k ≠ 0 ∧ s.textCode k ≠ 10

/-- The codes before place `k`, the last one first. -/
def State.codesBefore (s : State) (k : Nat) : List Byte := ((List.range k).map s.textCode).reverse

/-- The left column of code `k`'s glyph: 8 pixels a code since the last newline (R141). -/
def State.codeX (s : State) (k : Nat) : Int :=
  sArg s 2 + 8 * (((s.codesBefore k).takeWhile fun c => c != 10).length : Int)

/-- The top row of code `k`'s glyph: 8 pixels a newline (R141). -/
def State.codeY (s : State) (k : Nat) : Int :=
  sArg s 3 + 8 * (((s.codesBefore k).filter fun c => c == 10).length : Int)

end Sys2Proof.Machine
end

