-- ==== Sys2Proof/Certificates/Slice0/Obligations.lean ====
section
/-! DEFINITION. The statements for the provers, each citing the rules of spec/ it formalises. In all of them, what
the draw-color latch holds between commands is the model's choice (log entry 18). -/

open Sys2Proof Sys2Proof.Machine

/-! ## Encoding -/

/-- Decoding an encoded command gives it back, and a word that decodes is the encoding of what it decodes to
(R66, R69). -/
def Obligations.DecodeAndEncodeAreInverse : Prop :=
  (∀ i : Instr, i.wf = true → decode (encode i) = .ok i) ∧
  (∀ (w : Word) (i : Instr), decode w = .ok i → encode i = w)

/-- A word is rejected exactly if one of R66's clauses holds, on the word's own bits (R61). -/
def Obligations.DecodeRejectsExactlyIllegalWords : Prop :=
  ∀ w : Word, (∃ e, decode w = .error e) ↔
    (w.toNat % 16 = 0 ∨ 12 ≤ w.toNat % 16 ∨ w.toNat / 1024 ≠ 0 ∨
      (w.toNat / 16 % 16 ≠ 0 ∧ w.toNat % 16 ≠ 11) ∨
      (w.toNat / 256 % 4 ≠ 0 ∧ w.toNat % 16 ≠ 2 ∧ w.toNat % 16 ≠ 3 ∧ w.toNat % 16 ≠ 4))

/-- Words written out from R69's table decode to the commands they stand for. -/
def Obligations.WrittenOutWordsDecode : Prop :=
  decode 0b00000000000000000000000000000001#32 = .ok .clear ∧
  decode 0b00000000000000000000001000000010#32 = .ok (.writeU 2) ∧
  decode 0b00000000000000000000000000000111#32 = .ok .rect ∧
  decode 0b00000000000000000000000000111011#32 = .ok (.blit true true false false) ∧
  decode 0b00000000000000000000000010001011#32 = .ok (.blit false false false true)

/-! ## The step -/

/-- A write to `CMD` of a word that decodes to `i` stores the word in `CMD` and runs `i` (R62). -/
def Obligations.StepRunsTheDecodedCommand : Prop :=
  ∀ (s : State) (w : Word) (i : Instr) (rest : List HostAction), s.params.WF →
    s.pending = .portWrite s.params.portBase 4 w :: rest → decode w = .ok i → i.wf = true →
    step s = exec i ((s.setPending rest).setCmd w)

/-- A write to `CMD` of an illegal word sets `STATUS.ILLEGAL` and changes nothing else but `CMD` (R170). -/
def Obligations.IllegalWordOnlySetsIllegal : Prop :=
  ∀ (s : State) (w : Word) (e : DecodeError) (rest : List HostAction), s.params.WF →
    s.pending = .portWrite s.params.portBase 4 w :: rest → decode w = .error e →
    step s = .next { s with cmd := w, status := s.status ||| 0x00000001, pending := rest }

/-- With no host action pending the block waits, and changes nothing (R192). -/
def Obligations.IdleBlockWaits : Prop :=
  ∀ s : State, s.params.WF → s.pending = [] → step s = .next s

/-- `State.reset` has `STATUS` 0 and no command, and every reset state over canonical memory meets the invariant,
`State.reset` among them. Its parameters and its zero registers are the model's choice (log entries 1 to 3). -/
def Obligations.ResetMeetsInv : Prop :=
  State.reset.status = 0 ∧ State.reset.pending = [] ∧ State.reset.Inv ∧
  ∀ (p : Params) (m : Memory), p.WF → m.wf = true → (∀ c ∈ m, c.1 < p.hostMemSize) → (State.resetWith p m).Inv

/-- Every step keeps the invariant: legal parameters, memory in canonical form and inside host memory, reserved
`STATUS` bits 0. -/
def Obligations.EveryStepKeepsInv : Prop :=
  ∀ s t : State, s.Inv → step s = .next t → t.Inv

/-- From a good state a dutiful host's step always answers a next state, which is good again, with a dutiful host.
That a command runs which reads framebuffer bytes as source data is the model's choice (log entry 7), and so is what
counts as an aligned port access (log entry 9). -/
def Obligations.DutifulHostNeverStops : Prop :=
  ∀ s : State, s.Inv → s.HostDutiful → ∃ t, step s = .next t ∧ t.Inv ∧ t.HostDutiful

/-! ## What every command keeps -/

/-- Every command answers a next state, and none writes `CMD` or an argument register (R20); the parameters and
the host's side are also kept. That a command runs which reads framebuffer bytes as source data is the model's choice
(log entry 7). -/
def Obligations.CommandsCompleteAndKeepPortRegisters : Prop :=
  ∀ (i : Instr) (s : State), ∃ t, exec i s = .next t ∧ t.cmd = s.cmd ∧ t.args = s.args ∧
    t.params = s.params ∧ t.pending = s.pending ∧ t.hostData = s.hostData

/-- No command writes a byte outside the framebuffer (R45). -/
def Obligations.CommandsWriteOnlyTheFramebuffer : Prop :=
  ∀ (i : Instr) (s t : State), s.Ready → exec i s = .next t →
    ∀ a, ¬ s.params.InFramebuffer a → t.mem.read a = s.mem.read a

/-- Only WRITE_U and FILL_ROW raise an exception, and then with no write and no other effect (R171, R172, R173).
That the latch keeps its value is the model's choice (log entry 18). -/
def Obligations.ExceptionsArePrecise : Prop :=
  ∀ (i : Instr) (s t : State), exec i s = .next t →
    t.status = s.status ∨ (t = s.setStatus (s.status ||| 0x00000002) ∧ ∃ c, i = .writeU c ∨ i = .fillRow c)

/-- A set `STATUS` bit stays set at every step that is no reset (R22). -/
def Obligations.StatusBitsAreSticky : Prop :=
  ∀ (s t : State) (k : Nat), step s = .next t → s.pending.head? ≠ some .reset →
    s.status.getLsbD k = true → t.status.getLsbD k = true

/-- The value of `STATUS` has no influence on what a command does to the rest of the machine (R172). That a
command runs which reads framebuffer bytes as source data is the model's choice (log entry 7). -/
def Obligations.StatusDoesNotBlockCommands : Prop :=
  ∀ (i : Instr) (s : State) (v : Word), ∃ t t', exec i s = .next t ∧ exec i (s.setStatus v) = .next t' ∧
    t' = t.setStatus t'.status

/-- The draw commands latch the draw-color register at their start; CLEAR, WRITE_U, WRITE_C and FILL_ROW do not read
it (R25). That the latch still holds its value when a command has ended is the model's choice (log entry 18): R32
says that it does not survive a command and is not visible. -/
def Obligations.DrawCommandsLatchDrawColors : Prop :=
  ∀ (i : Instr) (s t : State), exec i s = .next t →
    t.dc = match i with
      | .clear | .writeU _ | .writeC _ | .fillRow _ => s.dc
      | _ => s.drawColors

/-- The draw-color register is stored little-endian at `DC_ADDR` (R24). -/
def Obligations.DrawColorsAreLittleEndian : Prop :=
  ∀ s : State, s.params.WF →
    s.drawColors.toNat = (s.mem.read s.params.dcAddr).toNat + 256 * (s.mem.read (s.params.dcAddr + 1)).toNat

/-! ## The Pixel Store -/

/-- CLEAR, the word 1, writes 0 to every framebuffer byte and changes nothing else, `STATUS` among it; then `Pix`
is 0 on the canvas (R84). That the latch keeps its value is the model's choice (log entry 18). -/
def Obligations.ClearZeroesTheFramebuffer : Prop :=
  encode .clear = 0x00000001 ∧ ∀ s : State, s.Ready → ∃ t, exec .clear s = .next t ∧ t = s.setMem t.mem ∧
    (∀ a, t.mem.read a = if s.params.InFramebuffer a then 0 else s.mem.read a) ∧
    (∀ x y, InCanvas s.params x y → t.pixAt x y = 0)

/-- WRITE_U on the canvas writes its color to its pixel, and nothing else (R85).
That the latch keeps its value is the model's choice (log entry 18). -/
def Obligations.WriteUPaintsItsPixel : Prop :=
  ∀ (c : Color) (s : State), s.Ready → InCanvas s.params (sArg s 0) (sArg s 1) →
    ∃ t, exec (.writeU c) s = .next t ∧
      Paints s t (fun x y => if x = sArg s 0 ∧ y = sArg s 1 then some c else none)

/-- WRITE_U outside the canvas sets `STATUS.PRECOND` and writes nothing (R85, R171).
That the latch keeps its value is the model's choice (log entry 18). -/
def Obligations.WriteUOutsideRaisesPrecond : Prop :=
  ∀ (c : Color) (s : State), ¬ InCanvas s.params (sArg s 0) (sArg s 1) →
    exec (.writeU c) s = .next { s with status := s.status ||| 0x00000002 }

/-- WRITE_C, the word `3 | (c << 8)`, writes its pixel if it lies on the canvas, and else silently does nothing
(R86). That the latch keeps its value is the model's choice (log entry 18). -/
def Obligations.WriteCPaintsOrDoesNothing : Prop :=
  (∀ c : Color, encode (.writeC c) = 0x00000003 ||| (c.setWidth 32 <<< 8)) ∧
  ∀ (c : Color) (s : State), s.Ready →
    ∃ t, exec (.writeC c) s = .next t ∧
      Paints s t (fun x y => if x = sArg s 0 ∧ y = sArg s 1 then some c else none) ∧
      (¬ InCanvas s.params (sArg s 0) (sArg s 1) → t = s)

/-- CLEAR followed by WRITE_U on a canvas pixel gives its color there and 0 at every other pixel (R87). -/
def Obligations.ClearThenWriteULeavesOnePixel : Prop :=
  ∀ (c : Color) (s : State), s.Ready → InCanvas s.params (sArg s 0) (sArg s 1) →
    ∃ t u, exec .clear s = .next t ∧ exec (.writeU c) t = .next u ∧
      ∀ x y, InCanvas s.params x y → u.pixAt x y = if x = sArg s 0 ∧ y = sArg s 1 then c else 0

/-! ## The Color Resolver -/

/-- `RawColor` and `ShapeColor` are R91's table. -/
def Obligations.ColorResolverTable : Prop :=
  (List.range 16).map (fun n => rawColor (BitVec.ofNat 4 n)) =
    [3, 0, 1, 2, 3, 0, 1, 2, 3, 0, 1, 2, 3, 0, 1, 2] ∧
  (List.range 16).map (fun n => shapeColor (BitVec.ofNat 4 n)) =
    [none, some 0, some 1, some 2, some 3, some 0, some 1, some 2, some 3,
     some 0, some 1, some 2, some 3, some 0, some 1, some 2]

/-! ## Spans, lines, rectangles -/

/-- FILL_ROW with its precondition paints the span `[startX, endX)` of its row, and nothing else (R101).
That the latch keeps its value is the model's choice (log entry 18). -/
def Obligations.FillRowPaintsItsSpan : Prop :=
  ∀ (c : Color) (s : State), s.Ready → SpanInCanvas s.params (sArg s 0) (sArg s 1) (sArg s 2) →
    ∃ t, exec (.fillRow c) s = .next t ∧
      Paints s t (fun x y => if sArg s 0 ≤ x ∧ x < sArg s 2 ∧ y = sArg s 1 then some c else none)

/-- FILL_ROW without its precondition sets `STATUS.PRECOND` and writes nothing (R101, R171).
That the latch keeps its value is the model's choice (log entry 18). -/
def Obligations.FillRowBreachRaisesPrecond : Prop :=
  ∀ (c : Color) (s : State), ¬ SpanInCanvas s.params (sArg s 0) (sArg s 1) (sArg s 2) →
    exec (.fillRow c) s = .next { s with status := s.status ||| 0x00000002 }

/-- The fast path of the span fill gives the framebuffer of the per-pixel loop, byte for byte (R100). -/
def Obligations.SpanFastPathEqualsPixelLoop : Prop :=
  ∀ (p : Params) (m : Memory) (c : Color) (x0 y x1 : Int), p.WF → m.wf = true → SpanInCanvas p x0 y x1 →
    spanFast p m c x0 y x1 = putPixels p m (span c x0 y x1)

/-- HLINE, the word 5, paints the canvas pixels of `[x, x + len)` on row `y` in `ShapeColor(dc0)`, and nothing if that is
transparent (R103). What the latch holds afterwards is the model's choice (log entry 18). -/
def Obligations.HlinePaintsItsRow : Prop :=
  encode .hline = 0x00000005 ∧ ∀ s : State, s.Ready → ∃ t, exec .hline s = .next t ∧
    Paints s.latch t (fun x y =>
      if sArg s 0 ≤ x ∧ x < sArg s 0 + sArg s 2 ∧ y = sArg s 1 then shapeColor (nib s.drawColors 0) else none)

/-- VLINE, the word 6, paints the canvas pixels of rows `[y, y + len)` in column `x` in `ShapeColor(dc0)`, and
nothing if that is transparent (R104). What the latch holds afterwards is the model's choice (log entry 18). -/
def Obligations.VlinePaintsItsColumn : Prop :=
  encode .vline = 0x00000006 ∧ ∀ s : State, s.Ready → ∃ t, exec .vline s = .next t ∧
    Paints s.latch t (fun x y =>
      if x = sArg s 0 ∧ sArg s 1 ≤ y ∧ y < sArg s 1 + sArg s 2 then shapeColor (nib s.drawColors 0) else none)

/-- RECT's final state: inside the clamped bounds a border pixel takes the stroke color if there is one, any
other pixel the fill color if there is one; everything else is unchanged (R106).
What the latch holds afterwards is the model's choice (log entry 18). -/
def Obligations.RectHasItsFinalStateForm : Prop :=
  ∀ s : State, s.Ready → ∃ t, exec .rect s = .next t ∧
    Paints s.latch t (fun px py =>
      let x := sArg s 0; let y := sArg s 1; let width := sArg s 2; let height := sArg s 3
      let fill := shapeColor (nib s.drawColors 0)
      let stroke := shapeColor (nib s.drawColors 1)
      if max 0 x ≤ px ∧ px < min (s.params.width : Int) (x + width) ∧
         max 0 y ≤ py ∧ py < min (s.params.height : Int) (y + height) then
        (if stroke ≠ none ∧ (px = x ∨ px = x + width - 1 ∨ py = y ∨ py = y + height - 1) then stroke else fill)
      else none)

/-! ## The ellipse -/

/-- Under `ELLIPSE_F_SENTINEL`, `dc1 = 0xF` suppresses the whole OVAL: nothing is written (R122).
What the latch holds afterwards is the model's choice (log entry 18). -/
def Obligations.OvalSentinelWritesNothing : Prop :=
  ∀ s : State, s.params.ellipseFSentinel = true → nib s.drawColors 1 = 0xF → exec .oval s = .next s.latch

/-- A width or height below 2 makes a semi-axis not positive, and OVAL writes nothing (R120, R121).
What the latch holds afterwards is the model's choice (log entry 18). -/
def Obligations.OvalOfNoAxisWritesNothing : Prop :=
  ∀ s : State, (sArg s 2 < 2 ∨ sArg s 3 < 2) → exec .oval s = .next s.latch

/-- OVAL paints a figure in its stroke and fill colors alone, symmetric about its centre's axes wherever both
pixels lie on the canvas (R123, R126 a); the extreme points of both axes belong to it, as far as the canvas shows them.
What the latch holds afterwards is the model's choice (log entry 18). -/
def Obligations.OvalPaintsASymmetricFigure : Prop :=
  ∀ (s : State) (o : Oval), s.Ready → o = ovalOf s.drawColors (sArg s 0) (sArg s 1) (sArg s 2) (sArg s 3) →
    0 < o.a → 0 < o.b → ¬ (s.params.ellipseFSentinel = true ∧ nib s.drawColors 1 = 0xF) →
    ∃ t f, exec .oval s = .next t ∧ Paints s.latch t f ∧
      (∀ x y c, InCanvas s.params x y → f x y = some c →
        c = rawColor (nib s.drawColors 1) ∨ (nib s.drawColors 0 ≠ 0 ∧ c = rawColor (nib s.drawColors 0))) ∧
      (∀ x y, InCanvas s.params x y → InCanvas s.params (2 * o.x0 - x) y → f (2 * o.x0 - x) y = f x y) ∧
      (∀ x y, InCanvas s.params x y → InCanvas s.params x (2 * o.y0 - y) → f x (2 * o.y0 - y) = f x y) ∧
      (∀ q ∈ [(o.x0 + o.a, o.y0), (o.x0 - o.a, o.y0), (o.x0, o.y0 + o.b), (o.x0, o.y0 - o.b)],
        InCanvas s.params q.1 q.2 → f q.1 q.2 = some (rawColor (nib s.drawColors 1)))

/-- With any fill, or none, the four extreme points of an ellipse that lie on the canvas take the stroke color
`RawColor(dc1)`, for `dc1 = 0` too; with a fill, the centre and every other pixel between the extreme points of the
centre's row takes the fill color `RawColor(dc0)` (R121, R123, R124). -/
def Obligations.OvalStrokesItsExtremePoints : Prop :=
  ∀ (s : State) (a b x0 y0 : Int), s.Ready → a = sArg s 2 / 2 → b = sArg s 3 / 2 → x0 = sArg s 0 + a →
    y0 = sArg s 1 + b → 0 < a → 0 < b → ¬ (s.params.ellipseFSentinel = true ∧ nib s.drawColors 1 = 0xF) →
    ∃ t, exec .oval s = .next t ∧
      (∀ q ∈ [(x0 + a, y0), (x0 - a, y0), (x0, y0 + b), (x0, y0 - b)],
        InCanvas s.params q.1 q.2 → t.pixAt q.1 q.2 = rawColor (nib s.drawColors 1)) ∧
      (nib s.drawColors 0 ≠ 0 → ∀ x, x0 - a < x → x < x0 + a → InCanvas s.params x y0 →
        t.pixAt x y0 = rawColor (nib s.drawColors 0))

/-- OVAL paints exactly this figure, with `X` and `Y` the distances from the centre: the stroke color at the points
of the two arcs; the fill color, if there is a fill, at every other point of a fill span of either region; nothing
elsewhere (R120, R123, R124, R125). Where the two regions meet, a fill span of region 1 can take in a stroke point
of region 2, which is drawn later and stays: R120's order decides (log entry 17).
What the latch holds afterwards is the model's choice (log entry 18). -/
def Obligations.OvalPaintsItsArcsAndSpans : Prop :=
  ∀ (s : State) (a b x0 y0 : Int), s.Ready → a = sArg s 2 / 2 → b = sArg s 3 / 2 → x0 = sArg s 0 + a →
    y0 = sArg s 1 + b → 0 < a → 0 < b → ¬ (s.params.ellipseFSentinel = true ∧ nib s.drawColors 1 = 0xF) →
    ∃ t f, exec .oval s = .next t ∧ Paints s.latch t f ∧
      ∀ x y X Y, InCanvas s.params x y → X = ((x - x0).natAbs : Int) → Y = ((y - y0).natAbs : Int) →
        (SideArc a b X Y ∨ TopArc a b X Y → f x y = some (rawColor (nib s.drawColors 1))) ∧
        (¬ (SideArc a b X Y ∨ TopArc a b X Y) → SideFill a b X Y ∨ TopFill a b X Y →
          f x y = shapeColor (nib s.drawColors 0)) ∧
        (¬ (SideArc a b X Y ∨ TopArc a b X Y) → ¬ (SideFill a b X Y ∨ TopFill a b X Y) → f x y = none)

/-- Both loops of OVAL end by their own tests: more passes than the model's bound change nothing (R200: "no
unbounded loops"). -/
def Obligations.OvalLoopsEndByTheirTests : Prop :=
  ∀ (p : Params) (o : Oval) (n : Nat), 0 < o.a → 0 < o.b →
    region1 p o (fuel1 o + n) (arc1Start o) = region1 p o (fuel1 o) (arc1Start o) ∧
    region2 p o (fuel2 o + n) (arc2Start o) = region2 p o (fuel2 o) (arc2Start o)

/-! ## The line -/

/-- LINE paints the canvas points of its walk in `ShapeColor(dc0)`, and nothing if that is transparent (R130).
What the latch holds afterwards is the model's choice (log entry 18). -/
def Obligations.LinePaintsItsWalk : Prop :=
  ∀ s : State, s.Ready → ∃ t, exec .line s = .next t ∧
    Paints s.latch t (fun x y =>
      if (x, y) ∈ linePoints (Segment.normalise ⟨sArg s 0, sArg s 1, sArg s 2, sArg s 3⟩)
      then shapeColor (nib s.drawColors 0) else none)

/-- The walk from `(x1, y1)` ends at `(x2, y2)` after exactly `max(dx, dy) + 1` points, no point twice, so that
both endpoints are plotted exactly once (R135 a, d). From each point to the next, x stays or moves by
`sign(x2 - x1)`, y stays or moves by 1, and the longer axis always moves (R131, R133). -/
def Obligations.LineWalkReachesItsEndpoint : Prop :=
  ∀ g : Segment, g.y1 ≤ g.y2 →
    (linePoints g).head? = some (g.x1, g.y1) ∧ (linePoints g).getLast? = some (g.x2, g.y2) ∧
    ((linePoints g).length : Int) = max g.dx g.dy + 1 ∧ (linePoints g).Nodup ∧
    ∀ (k : Nat) (q q' : Int × Int), (linePoints g)[k]? = some q → (linePoints g)[k + 1]? = some q' →
      (q'.1 = q.1 ∨ q'.1 = q.1 + (g.x2 - g.x1).sign) ∧ (q'.2 = q.2 ∨ q'.2 = q.2 + 1) ∧
      (g.y2 - g.y1 < ((g.x2 - g.x1).natAbs : Int) → q'.1 = q.1 + (g.x2 - g.x1).sign) ∧
      (((g.x2 - g.x1).natAbs : Int) ≤ g.y2 - g.y1 → q'.2 = q.2 + 1)

/-- The walk in closed form: point `k` is `k` steps along the longer axis, and along the other axis the error term of
R130 and R132, both tests of a pass reading its start value (R134), gives `k` times the slope less a half, rounded
up. -/
def Obligations.LineWalkHasItsClosedForm : Prop :=
  ∀ (x1 y1 x2 y2 dx dy sx : Int), y1 ≤ y2 → dx = ((x2 - x1).natAbs : Int) → dy = y2 - y1 → sx = (x2 - x1).sign →
    linePoints ⟨x1, y1, x2, y2⟩ = (List.range (max dx dy + 1).toNat).map fun k : Nat =>
      if dx > dy then (x1 + sx * k, y1 + (k * dy - dx / 2 + (dx - 1)) / dx)
      else (x1 + sx * ((k * dx - dy / 2 + (dy - 1)) / dy), y1 + k)

/-- Swapping the two endpoints of a LINE gives the same pixel set (R135 b). -/
def Obligations.LineIsSymmetricUnderSwap : Prop :=
  ∀ (x1 y1 x2 y2 : Int) (q : Int × Int),
    q ∈ linePoints (Segment.normalise ⟨x1, y1, x2, y2⟩) ↔ q ∈ linePoints (Segment.normalise ⟨x2, y2, x1, y1⟩)

/-! ## Text -/

/-- Code 0 is the terminator, code 10 the newline, every other code the glyph `code - 32` (R142). -/
def Obligations.ClassifyCodes : Prop :=
  ∀ code : Byte, classify code =
    if code.toNat = 0 then .terminator else if code.toNat = 10 then .newline else .glyph ((code.toNat : Int) - 32)

/-- TEXT paints only inside the 8×8 cells of its glyphs (R140, R143). That it runs when it reads framebuffer bytes
is the model's choice (log entry 7). What the latch holds afterwards is the model's choice (log entry 18). -/
def Obligations.TextPaintsOnlyItsGlyphCells : Prop :=
  ∀ s : State, s.Ready → ∃ t f, exec .text s = .next t ∧ Paints s.latch t f ∧
    ∀ x y, f x y ≠ none → ∃ q ∈ textGlyphs s.latch, q.cx ≤ x ∧ x < q.cx + 8 ∧ q.cy ≤ y ∧ y < q.cy + 8

/-- A TEXT whose codes lie in host memory and outside the framebuffer draws every code it reads but newlines, at
the cursor (R140, R141): of a glyph in the atlas, local pixel `(c, r)` takes bit `7 - c` of the glyph's row byte `r`,
through `dc0` or `dc1` (R143); of one outside it, `dc0` or `dc1` by a free bit (R144). Nothing else is painted.
What the latch holds afterwards is the model's choice (log entry 18). -/
def Obligations.TextPaintsAGlyphFromTheAtlas : Prop :=
  ∀ s : State, s.Ready →
    (∀ k, s.ReadsCode k → (uArg s 0).toNat + k < s.params.hostMemSize ∧ ¬ s.params.InFramebuffer ((uArg s 0).toNat + k)) →
    (∀ k r : Nat, s.DrawsCode k → InAtlas s.params ((s.textCode k).toNat - 32) → r < 8 →
      ¬ s.params.InFramebuffer (s.params.fontBase + 8 * ((s.textCode k).toNat - 32) + r)) →
    ∃ t f, exec .text s = .next t ∧ Paints s.latch t f ∧
      (∀ (k c r : Nat), s.DrawsCode k → c < 8 → r < 8 → InCanvas s.params (s.codeX k + c) (s.codeY k + r) →
        if InAtlas s.params ((s.textCode k).toNat - 32) then
          f (s.codeX k + c) (s.codeY k + r) = spriteColor s.drawColors
            (if (s.mem.read (s.params.fontBase + 8 * ((s.textCode k).toNat - 32) + r)).getLsbD (7 - c) then 1 else 0)
        else f (s.codeX k + c) (s.codeY k + r) = spriteColor s.drawColors 0 ∨
          f (s.codeX k + c) (s.codeY k + r) = spriteColor s.drawColors 1) ∧
      ∀ x y, InCanvas s.params x y → f x y ≠ none →
        ∃ k, s.DrawsCode k ∧ s.codeX k ≤ x ∧ x < s.codeX k + 8 ∧ s.codeY k ≤ y ∧ y < s.codeY k + 8

/-- A TEXT of one code whose glyph is outside the atlas completes: inside the cell each pixel is resolved through
`dc0` or `dc1`, whichever bit is drawn, and outside it nothing is painted (R144).
What the latch holds afterwards is the model's choice (log entry 18). -/
def Obligations.TextOutsideTheAtlasStaysInItsCell : Prop :=
  ∀ (s : State) (code : Byte), s.Ready → sArg s 1 = 1 →
    uArg s 0 < s.params.hostMemSize → ¬ s.params.InFramebuffer (uArg s 0).toNat →
    code = s.mem.read (uArg s 0).toNat → code ≠ 0 → code ≠ 10 →
    ¬ InAtlas s.params ((code.toNat : Int) - 32) →
    ∃ t f, exec .text s = .next t ∧ Paints s.latch t f ∧
      ∀ x y, InCanvas s.params x y →
        if sArg s 2 ≤ x ∧ x < sArg s 2 + 8 ∧ sArg s 3 ≤ y ∧ y < sArg s 3 + 8
        then f x y = spriteColor s.drawColors 0 ∨ f x y = spriteColor s.drawColors 1
        else f x y = none

/-- The cursor: after codes `pre` a glyph stands 8 pixels right of the start for each glyph since the last
newline, and 8 pixels down for each newline (R141). -/
def Obligations.TextCursorAdvancesByEight : Prop :=
  ∀ (x y : Int) (pre post : List (Nat × Token)) (i : Nat) (g : Int), (∀ t ∈ pre, t.2 ≠ .terminator) →
    ∃ before after, placeGlyphs x (pre ++ (i, .glyph g) :: post) x y =
      before ++ ⟨i, g, x + 8 * ((pre.reverse.takeWhile fun t => t.2 ≠ .newline).length : Int),
        y + 8 * ((pre.filter fun t => t.2 = .newline).length : Int)⟩ :: after

/-- Code 0 ends the command even if `len` goes on: the result is that of the text cut at the terminator (R140).
That the two commands run even where a glyph lies in the framebuffer is the model's choice (log entry 7). -/
def Obligations.TextStopsAtTheTerminator : Prop :=
  ∀ (s : State) (k : Nat), (k : Int) < sArg s 1 → (∀ i : Nat, i ≤ k → 0 ≤ uArg s 0 + i ∧ uArg s 0 + i < s.params.hostMemSize ∧
      sourceInFramebuffer s.params (uArg s 0 + i) = false) →
    s.mem.read (uArg s 0 + k).toNat = 0 →
    ∃ t t', exec .text s = .next t ∧ exec .text (s.setArgs (s.args.set 1 (BitVec.ofNat 32 k))) = .next t' ∧
      t'.mem = t.mem

/-! ## Sprites -/

/-- A blit that samples no framebuffer byte paints each canvas pixel of its window in the color its sample
resolves to, and leaves a pixel with a transparent sample unchanged (R153, R155).
What the latch holds afterwards is the model's choice (log entry 18). -/
def Obligations.BlitPaintsItsSamples : Prop :=
  ∀ (bpp2 flipX flipY rotate : Bool) (s : State) (b : Sprite), s.Ready →
    b = blitSprite s bpp2 flipX flipY rotate → b.samplesFramebuffer s.params = false →
    ∃ t, exec (.blit bpp2 flipX flipY rotate) s = .next t ∧
      Paints s.latch t (fun x y =>
        let c := x - b.dstX; let r := y - b.dstY
        if 0 ≤ c ∧ c < b.width ∧ 0 ≤ r ∧ r < b.height
        then spriteColor s.drawColors (b.sample s.latch s.latch.draws 0 c r) else none)

/-- A blit that samples a framebuffer byte runs, and paints the pixels whose samples are not transparent, each with
a value in `[0, 3]` that is free (R48). R48 also lets a model refuse the command: that this one runs it, and that a
pixel with a transparent sample is unchanged, is the model's choice (log entry 7).
What the latch holds afterwards is the model's choice (log entry 18). -/
def Obligations.BlitFromTheFramebufferPaintsFreeColors : Prop :=
  ∀ (bpp2 flipX flipY rotate : Bool) (s : State) (b : Sprite), s.Ready →
    b = blitSprite s bpp2 flipX flipY rotate → b.samplesFramebuffer s.params = true →
    ∃ t, exec (.blit bpp2 flipX flipY rotate) s = .next t ∧
      Paints s.latch t (fun x y =>
        let c := x - b.dstX; let r := y - b.dstY
        if 0 ≤ c ∧ c < b.width ∧ 0 ≤ r ∧ r < b.height
        then (spriteColor s.drawColors (b.sample s.latch s.latch.draws 0 c r)).map fun _ =>
          Config.freeColor ⟨s.latch.draws, .sample 0 c r⟩
        else none)

/-- Whatever a blit samples, it completes, and it leaves every pixel outside its window unchanged (R151). For a blit
that samples the framebuffer this is the model's choice (log entry 7): R48 also lets a model refuse it.
What the latch holds afterwards is the model's choice (log entry 18). -/
def Obligations.BlitPaintsOnlyItsWindow : Prop :=
  ∀ (bpp2 flipX flipY rotate : Bool) (s : State) (b : Sprite), s.Ready →
    b = blitSprite s bpp2 flipX flipY rotate →
    ∃ t f, exec (.blit bpp2 flipX flipY rotate) s = .next t ∧ Paints s.latch t f ∧
      ∀ x y, f x y ≠ none → 0 ≤ x - b.dstX ∧ x - b.dstX < b.width ∧ 0 ≤ y - b.dstY ∧ y - b.dstY < b.height

/-- A sample is taken at the bit index `bi = (srcY + sy)*srcStride + (srcX + sx)`, from the byte `floor(bi/4)` (2bpp)
or `floor(bi/8)` (1bpp) after `base` (R154); if that byte lies in host memory and outside the framebuffer, it is the
pixel's field of that byte, most significant pixel first (R41). -/
def Obligations.SampleIsTheMostSignificantFirstField : Prop :=
  ∀ (s : State) (b : Sprite) (serial glyph : Nat) (c r sx sy bi a : Int),
    (sx, sy) = b.sampleXY s.params c r → bi = (b.srcY + sy) * b.srcStride + (b.srcX + sx) →
    a = b.base + (if b.bpp2 then bi / 4 else bi / 8) → 0 ≤ a → a < s.params.hostMemSize →
    ¬ s.params.InFramebuffer a.toNat →
    (b.sample s serial glyph c r).toNat =
      if b.bpp2 then (s.mem.read a.toNat).toNat / 2 ^ (6 - 2 * (bi % 4).toNat) % 4
      else (s.mem.read a.toNat).toNat / 2 ^ (7 - (bi % 8).toNat) % 2

/-- The sample coordinates of local pixel `(c, r)` under all eight combinations of `rotate`, `flipX` and `flipY` and
both settings of `FLIP_BASIS` (R152, R153, R157): `mc` and `mr` are the mirrored `c` and `r`. -/
def Obligations.RotateAndFlipCoordinates : Prop :=
  ∀ (p : Params) (b : Sprite) (c r mc mr : Int),
    (mc = match p.flipBasis with
      | .declared => b.width - 1 - c
      | .clipped => max 0 (-b.dstX) + min b.width ((p.width : Int) - b.dstX) - 1 - c) →
    (mr = match p.flipBasis with
      | .declared => b.height - 1 - r
      | .clipped => max 0 (-b.dstY) + min b.height ((p.height : Int) - b.dstY) - 1 - r) →
    b.sampleXY p c r = match b.rotate, b.flipX, b.flipY with
      | false, false, false => (c, r)
      | false, true, false => (mc, r)
      | false, false, true => (c, mr)
      | false, true, true => (mc, mr)
      | true, false, false => (mr, c)
      | true, true, false => (r, c)
      | true, false, true => (mr, mc)
      | true, true, true => (r, mc)

/-- BLIT from its operands to its pixels: the window of `width` columns and `height` rows, exchanged in a rotated blit
under `ROTATE_DIMS = SOURCE` (R150, R156); each canvas pixel of it takes the field of its sample's byte through the
draw colors, or is unchanged where that is transparent (R153, R154, R155). For every mode whose sampled bytes lie in
host memory outside the framebuffer. What the latch holds afterwards is the model's choice (log entry 18). -/
def Obligations.BlitDrawsItsBitmap : Prop :=
  ∀ (bpp2 flipX flipY rotate : Bool) (s : State) (W H : Int) (X Y bi a : Int → Int → Int), s.Ready →
    (W, H) = (if rotate = true ∧ s.params.rotateDims = .source then (sArg s 4, sArg s 3) else (sArg s 3, sArg s 4)) →
    (∀ c r, (X c r, Y c r) =
      let mc := match s.params.flipBasis with
        | .declared => W - 1 - c
        | .clipped => max 0 (-sArg s 1) + min W ((s.params.width : Int) - sArg s 1) - 1 - c
      let mr := match s.params.flipBasis with
        | .declared => H - 1 - r
        | .clipped => max 0 (-sArg s 2) + min H ((s.params.height : Int) - sArg s 2) - 1 - r
      if rotate then (if flipX then r else mr, if flipY then mc else c)
      else (if flipX then mc else c, if flipY then mr else r)) →
    (∀ c r, bi c r = (sArg s 6 + Y c r) * sArg s 7 + (sArg s 5 + X c r)) →
    (∀ c r, a c r = uArg s 0 + (if bpp2 then bi c r / 4 else bi c r / 8)) →
    (∀ c r, 0 ≤ c → c < W → 0 ≤ r → r < H → InCanvas s.params (sArg s 1 + c) (sArg s 2 + r) →
      0 ≤ a c r ∧ a c r < s.params.hostMemSize ∧ ¬ s.params.InFramebuffer (a c r).toNat) →
    ∃ t, exec (.blit bpp2 flipX flipY rotate) s = .next t ∧
      Paints s.latch t (fun x y =>
        let c := x - sArg s 1; let r := y - sArg s 2
        let v := (s.mem.read (a c r).toNat).toNat
        if 0 ≤ c ∧ c < W ∧ 0 ≤ r ∧ r < H then
          spriteColor s.drawColors (BitVec.ofNat 2
            (if bpp2 then v / 2 ^ (6 - 2 * (bi c r % 4).toNat) % 4 else v / 2 ^ (7 - (bi c r % 8).toNat) % 2))
        else none)

/-- The two settings of `FLIP_BASIS` agree whenever the window is not clipped (R157). That the blit runs even where
it samples the framebuffer is the model's choice (log entry 7). -/
def Obligations.FlipBasesAgreeUnclipped : Prop :=
  ∀ (bpp2 flipX flipY rotate : Bool) (s : State) (v : FlipBasis) (b : Sprite),
    b = blitSprite s bpp2 flipX flipY rotate →
    0 ≤ b.dstX → b.dstX + b.width ≤ s.params.width → 0 ≤ b.dstY → b.dstY + b.height ≤ s.params.height →
    ∃ t t', exec (.blit bpp2 flipX flipY rotate) s = .next t ∧
      exec (.blit bpp2 flipX flipY rotate) { s with params := { s.params with flipBasis := v } } = .next t' ∧
      t'.mem = t.mem

/-! ## The command port and the host -/

/-- The register map of the port (R60). -/
def Obligations.PortRegisterMap : Prop :=
  portReg 0x00 = some .cmd ∧ portReg 0x04 = some .status ∧
  (∀ i : Fin 8, portReg (0x08 + 4 * i.val) = some (.arg i)) ∧
  (∀ off, off % 4 = 0 → 0x28 ≤ off → off ≤ 0x3C → portReg off = some .reserved) ∧
  (∀ off, off % 4 ≠ 0 ∨ 0x3C < off → portReg off = none)

/-- An argument register reads back the last value that the host wrote to it; the other registers, memory and
`STATUS` are as they were (R23). -/
def Obligations.ArgRegisterReadsBack : Prop :=
  ∀ (s : State) (i : Fin 8) (w : Word) (rest : List HostAction), s.params.WF →
    s.pending = .portWrite (s.params.portBase + 0x08 + 4 * i.val) 4 w ::
      .portRead (s.params.portBase + 0x08 + 4 * i.val) 4 :: rest →
    ∃ t, Host.Core.run Sys2Proof.core 2 s = .next t ∧ t.hostData = w ∧ t.args.get i = w ∧
      (∀ j, j ≠ i → t.args.get j = s.args.get j) ∧
      t = { s with args := t.args, hostData := w, pending := rest }

/-- `CMD` reads back the last word that the host wrote to it, whatever the command did (R23). That the write goes on
to a next state also where the command reads framebuffer bytes as source data is the model's choice (log entry 7):
R48 lets a model refuse such a command. The host reads any byte
of host memory, and a byte of the framebuffer holds its pixels four to a byte, row-major, the least significant
pair of bits first (R26). Neither read changes anything but what the host has read. -/
def Obligations.CmdAndHostMemoryReadBack : Prop :=
  (∀ (s : State) (w : Word) (rest : List HostAction), s.params.WF →
    s.pending = .portWrite s.params.portBase 4 w :: .portRead s.params.portBase 4 :: rest →
    ∃ u, step s = .next u ∧ u.cmd = w ∧ step u = .next ((u.setPending rest).setHostData w)) ∧
  (∀ (s : State) (addr : Nat) (rest : List HostAction), s.params.WF → addr < s.params.hostMemSize →
    s.pending = .memRead addr :: rest →
    step s = .next ((s.setPending rest).setHostData ((s.mem.read addr).setWidth 32))) ∧
  (∀ (s : State) (x y : Nat) (rest : List HostAction), s.params.WF → x < s.params.width → y < s.params.height →
    s.pending = .memRead (s.params.fbBase + (s.params.width * y + x) / 4) :: rest →
    ∃ t, step s = .next t ∧ (s.pixAt x y).toNat = t.hostData.toNat / 4 ^ (x % 4) % 4)

/-- Writes to `STATUS` and to the reserved offsets are ignored, and the reserved offsets read as 0 (R22, R60). -/
def Obligations.StatusAndReservedIgnoreWrites : Prop :=
  ∀ (s : State) (off : Nat) (w : Word) (rest : List HostAction), s.params.WF →
    (off = 0x04 ∨ (off % 4 = 0 ∧ 0x28 ≤ off ∧ off ≤ 0x3C)) →
    (s.pending = .portWrite (s.params.portBase + off) 4 w :: rest → step s = .next (s.setPending rest)) ∧
    (s.pending = .portRead (s.params.portBase + off) 4 :: rest →
      step s = .next ((s.setPending rest).setHostData (if off = 0x04 then s.status &&& 0x3 else 0)))

/-- A port access that is not 32 bits wide, or not aligned, is refused (R197). That alignment is counted from
`PORT_BASE`, on whose own alignment the spec says nothing, is the model's choice (log entry 9). -/
def Obligations.UnalignedPortAccessIsRefused : Prop :=
  ∀ (s : State) (addr bytes : Nat) (w : Word) (rest : List HostAction), s.params.WF →
    (bytes ≠ 4 ∨ (s.params.portBase ≤ addr ∧ (addr - s.params.portBase) % 4 ≠ 0)) →
    (s.pending = .portWrite addr bytes w :: rest ∨ s.pending = .portRead addr bytes :: rest) →
    step s = .refused .portAccess

/-- The host has no move that writes the framebuffer; a write elsewhere in host memory changes that byte alone
(R196, R27). -/
def Obligations.HostWritesOnlyOutsideTheFramebuffer : Prop :=
  ∀ (s : State) (a : Nat) (v : Byte) (rest : List HostAction), s.Ready → a < s.params.hostMemSize →
    s.pending = .memWrite a v :: rest →
    (s.params.InFramebuffer a → step s = .refused .hostFramebufferWrite) ∧
    (¬ s.params.InFramebuffer a → ∃ t, step s = .next t ∧ t = (s.setPending rest).setMem t.mem ∧
      ∀ b, t.mem.read b = if b = a then v else s.mem.read b)

/-- A reset clears `STATUS` and leaves host memory as it is (R190, R191). -/
def Obligations.ResetClearsStatusAndKeepsMemory : Prop :=
  ∀ (s : State) (rest : List HostAction), s.params.WF → s.pending = .reset :: rest →
    ∃ t, step s = .next t ∧ t.status = 0 ∧ t.mem = s.mem ∧ t.params = s.params ∧ t.pending = rest ∧
      t.hostData = s.hostData

/-- `SETDC v` leaves `v` in the draw-color register (R71). That its two bytes are two host writes is the model's
choice (log entry 12). -/
def Obligations.SetDcSetsTheDrawColors : Prop :=
  ∀ (s : State) (v : Nat), s.Ready → v ≤ 0xFFFF → s.pending = assemble s.params (.setDc v) →
    ∃ t, Host.Core.run Sys2Proof.core 2 s = .next t ∧ t.drawColors = BitVec.ofNat 16 v ∧ t.pending = [] ∧
      ∀ a, a ≠ s.params.dcAddr → a ≠ s.params.dcAddr + 1 → t.mem.read a = s.mem.read a

/-- A well-formed command statement assembles to writes of its operands to `ARG0`, `ARG1`, ... in order, and one
write of its word to `CMD`, which runs the command on those operands (R70, R62). -/
def Obligations.AssembledCommandRuns : Prop :=
  ∀ (s : State) (i : Instr) (ops : List Int), s.params.WF → (Stmt.command i ops).wf = true →
    s.pending = assemble s.params (.command i ops) →
    Host.Core.run Sys2Proof.core (ops.length + 1) s =
      exec i (((s.setPending []).setArgs (loadArgs s.args 0 ops)).setCmd (encode i))
end

