-- ==== Sys2Proof/Laws/Memory.lean ====
section
/-! SUPPORT. Host memory: its canonical form, which every operation keeps, reads after writes, and equality of
memories that read the same. -/

namespace Sys2Proof.Machine

open Sys2Proof

/-! ## The canonical form -/

/-- The canonical form of a list with a first cell. -/
theorem Memory.wfAbove_cons (lo : Option Nat) (k : Nat) (v : Byte) (m : Memory) :
    Memory.wfAbove lo ((k, v) :: m) = true ↔
      (∀ l, lo = some l → l < k) ∧ v ≠ Memory.blank ∧ Memory.wfAbove (some k) m = true := by
  cases lo <;> simp [Memory.wfAbove, and_assoc]

/-- A lower bound of the listed addresses may be lowered. -/
theorem Memory.wfAbove_weaken {lo lo' : Option Nat} {m : Memory}
    (h : ∀ l, lo' = some l → ∃ k, lo = some k ∧ l ≤ k) (hm : Memory.wfAbove lo m = true) :
    Memory.wfAbove lo' m = true := by
  cases m with
  | nil => rfl
  | cons c m =>
    obtain ⟨k, v⟩ := c
    rw [Memory.wfAbove_cons] at hm ⊢
    refine ⟨fun l hl => ?_, hm.2⟩
    obtain ⟨j, hj, hlj⟩ := h l hl
    have := hm.1 j hj
    omega

theorem Memory.wf_of_wfAbove {lo : Option Nat} {m : Memory} (hm : Memory.wfAbove lo m = true) : m.wf = true :=
  Memory.wfAbove_weaken (by simp) hm

/-- An address at or below the lower bound is not listed. -/
theorem Memory.read_of_le {l : Nat} {m : Memory} (hm : Memory.wfAbove (some l) m = true) {a : Nat} (h : a ≤ l) :
    m.read a = Memory.blank := by
  cases m with
  | nil => rfl
  | cons c m =>
    obtain ⟨k, v⟩ := c
    have := ((Memory.wfAbove_cons _ _ _ _).1 hm).1 l rfl
    simp [Memory.read, show a ≠ k by omega, show a < k by omega]

/-- A write at an address above the bound keeps the form above the bound. -/
theorem Memory.wfAbove_write {m : Memory} {a : Nat} {v : Byte} :
    ∀ {lo : Option Nat}, Memory.wfAbove lo m = true → (∀ l, lo = some l → l < a) →
      Memory.wfAbove lo (m.write a v) = true := by
  induction m with
  | nil =>
    intro lo _ hlo
    by_cases hv : v = Memory.blank
    · simp [Memory.write, hv, Memory.wfAbove]
    · simp only [Memory.write, hv, if_false]
      exact (Memory.wfAbove_cons _ _ _ _).2 ⟨hlo, hv, rfl⟩
  | cons c m ih =>
    obtain ⟨k, w⟩ := c
    intro lo hm hlo
    obtain ⟨h1, h2, h3⟩ := (Memory.wfAbove_cons _ _ _ _).1 hm
    by_cases hv : v = Memory.blank <;> by_cases hlt : a < k <;> by_cases heq : a = k <;>
      simp only [Memory.write, hv, hlt, heq, if_true, if_false, lt_irrefl]
    all_goals first
      | omega
      | exact hm
      | exact (Memory.wfAbove_cons _ _ _ _).2 ⟨h1, h2, ih h3 (by rintro l ⟨⟩; omega)⟩
      | exact (Memory.wfAbove_cons _ _ _ _).2 ⟨hlo, hv, (Memory.wfAbove_cons _ _ _ _).2 ⟨by rintro l ⟨⟩; omega, h2, h3⟩⟩
      | exact (Memory.wfAbove_cons _ _ _ _).2 ⟨h1, hv, h3⟩
      | exact Memory.wfAbove_weaken (fun l hl => ⟨k, rfl, le_of_lt (h1 l hl)⟩) h3
      | skip
    all_goals
      have := ih h3 (by rintro l ⟨⟩; omega : ∀ l, some k = some l → l < a)
      rw [hv] at this
      exact (Memory.wfAbove_cons _ _ _ _).2 ⟨h1, h2, this⟩

/-- A write keeps the canonical form. -/
theorem Memory.write_wf {m : Memory} (hm : m.wf = true) (a : Nat) (v : Byte) : (m.write a v).wf = true :=
  Memory.wfAbove_write hm (by simp)

/-! ## Reads after writes -/

theorem Memory.read_write_above {m : Memory} {a b : Nat} {v : Byte} :
    ∀ {lo : Option Nat}, Memory.wfAbove lo m = true →
      (m.write a v).read b = if b = a then v else m.read b := by
  induction m with
  | nil =>
    intro lo _
    by_cases hv : v = Memory.blank
    · by_cases hb : b = a <;> simp [Memory.write, Memory.read, hv, hb]
    · by_cases hb : b = a <;> simp [Memory.write, Memory.read, hv, hb]
  | cons c m ih =>
    obtain ⟨k, w⟩ := c
    intro lo hm
    obtain ⟨h1, h2, h3⟩ := (Memory.wfAbove_cons _ _ _ _).1 hm
    have hbelow : ∀ a, a ≤ k → Memory.read m a = Memory.blank := fun a h => Memory.read_of_le h3 h
    rcases lt_trichotomy a k with hlt | heq | hgt
    · by_cases hv : v = Memory.blank <;> simp only [Memory.write, hv, hlt, if_true, if_false, Memory.read]
      · split_ifs <;> first | rfl | omega
      · split_ifs <;> first | rfl | omega
    · subst heq
      by_cases hv : v = Memory.blank <;> simp only [Memory.write, hv, lt_irrefl, if_true, if_false, Memory.read]
      · split_ifs with hb hb'
        · exact hb ▸ hbelow a le_rfl
        · exact hbelow b (le_of_lt hb')
        · rfl
      · split_ifs <;> rfl
    · simp only [Memory.write, show ¬ a < k by omega, show ¬ a = k by omega, if_false, Memory.read, ih h3]
      split_ifs <;> first | rfl | omega

/-- What a read gives after a write: the byte at the address written, and every other byte as before. -/
theorem Memory.read_write {m : Memory} (hm : m.wf = true) (a b : Nat) (v : Byte) :
    (m.write a v).read b = if b = a then v else m.read b :=
  Memory.read_write_above hm

@[simp] theorem Memory.read_write_same {m : Memory} (hm : m.wf = true) (a : Nat) (v : Byte) :
    (m.write a v).read a = v := by simp [Memory.read_write hm]

theorem Memory.read_write_other {m : Memory} (hm : m.wf = true) {a b : Nat} (v : Byte) (h : b ≠ a) :
    (m.write a v).read b = m.read b := by simp [Memory.read_write hm, h]

/-- A write lists no address but the old ones and its own. -/
theorem Memory.mem_write {m : Memory} {a : Nat} {v : Byte} {c : Host.Cell} (h : c ∈ m.write a v) :
    c ∈ m ∨ c.1 = a := by
  induction m with
  | nil =>
    by_cases hv : v = Memory.blank <;> simp [Memory.write, hv] at h
    exact .inr (by simp [h])
  | cons d m ih =>
    obtain ⟨k, w⟩ := d
    simp only [Memory.write] at h
    split_ifs at h <;> simp only [List.mem_cons] at h ⊢
    · exact .inl h
    · rcases h with rfl | h
      · exact .inr rfl
      · exact .inl h
    · exact .inl (.inr h)
    · rcases h with rfl | h
      · exact .inr (by omega)
      · exact .inl (.inr h)
    · rcases h with h | h
      · exact .inl (.inl h)
      · rcases ih h with h | h
        · exact .inl (.inr h)
        · exact .inr h

/-! ## Memories in canonical form that read the same are equal -/

theorem Memory.ext_above {m m' : Memory} :
    ∀ {lo lo' : Option Nat}, Memory.wfAbove lo m = true → Memory.wfAbove lo' m' = true →
      (∀ a, m.read a = m'.read a) → m = m' := by
  induction m generalizing m' with
  | nil =>
    intro lo lo' _ hm' h
    cases m' with
    | nil => rfl
    | cons c m' =>
      obtain ⟨k, v⟩ := c
      have := h k
      simp only [Memory.read, if_true] at this
      exact absurd this.symm ((Memory.wfAbove_cons _ _ _ _).1 hm').2.1
  | cons c m ih =>
    obtain ⟨k, v⟩ := c
    intro lo lo' hm hm' h
    obtain ⟨_, hv, ht⟩ := (Memory.wfAbove_cons _ _ _ _).1 hm
    cases m' with
    | nil =>
      have := h k
      simp only [Memory.read, if_true] at this
      exact absurd this hv
    | cons c' m' =>
      obtain ⟨k', v'⟩ := c'
      obtain ⟨_, hv', ht'⟩ := (Memory.wfAbove_cons _ _ _ _).1 hm'
      have hk : k = k' := by
        rcases lt_trichotomy k k' with hlt | heq | hgt
        · have := h k
          simp only [Memory.read, if_true, show k ≠ k' by omega, hlt, if_false] at this
          exact absurd this hv
        · exact heq
        · have := h k'
          simp only [Memory.read, if_true, show k' ≠ k by omega, hgt, if_false] at this
          exact absurd this.symm hv'
      subst hk
      have hvv : v = v' := by simpa [Memory.read] using h k
      subst hvv
      rw [ih ht ht' fun a => ?_]
      rcases le_or_gt a k with hle | hgt
      · rw [Memory.read_of_le ht hle, Memory.read_of_le ht' hle]
      · simpa [Memory.read, show a ≠ k by omega, show ¬ a < k by omega] using h a

/-- Two memories in canonical form that read the same at every address are the same data. -/
theorem Memory.ext_read {m m' : Memory} (hm : m.wf = true) (hm' : m'.wf = true)
    (h : ∀ a, m.read a = m'.read a) : m = m' :=
  Memory.ext_above hm hm' h

/-! ## Filling bytes -/

theorem fillBytes_wf {v : Byte} : ∀ {n a : Nat} {m : Memory}, m.wf = true → (fillBytes v n a m).wf = true
  | 0, _, _, h => h
  | n + 1, a, _, h => fillBytes_wf (n := n) (a := a + 1) (Memory.write_wf h a v)

/-- The bytes of the filled range hold `v`; every other byte is as before. -/
theorem read_fillBytes {v : Byte} :
    ∀ {n a : Nat} {m : Memory}, m.wf = true → ∀ b : Nat,
      (fillBytes v n a m).read b = if a ≤ b ∧ b < a + n then v else m.read b
  | 0, a, m, _, b => by simp [fillBytes, show ¬ (a ≤ b ∧ b < a) by omega]
  | n + 1, a, m, h, b => by
    rw [fillBytes, read_fillBytes (Memory.write_wf h _ _), Memory.read_write h]
    split_ifs <;> first | rfl | omega

theorem mem_fillBytes {v : Byte} {c : Host.Cell} :
    ∀ {n a : Nat} {m : Memory}, c ∈ fillBytes v n a m → c ∈ m ∨ (a ≤ c.1 ∧ c.1 < a + n)
  | 0, _, _, h => .inl h
  | n + 1, a, m, h => by
    rcases mem_fillBytes (n := n) h with h | h
    · rcases Memory.mem_write h with h | h
      · exact .inl h
      · exact .inr (by omega)
    · exact .inr (by omega)

end Sys2Proof.Machine
end

