-- ==== Sys2Proof/Laws/State.lean ====
section
/-! SUPPORT. The small lemmas of the state's updates: what each field is after each update. -/

namespace Sys2Proof.Machine

open Sys2Proof

variable (s : State)

/-! ## `setCmd` -/

@[simp] theorem State.setCmd_params (w : Word) : (s.setCmd w).params = s.params := rfl
@[simp] theorem State.setCmd_cmd (w : Word) : (s.setCmd w).cmd = w := rfl
@[simp] theorem State.setCmd_status (w : Word) : (s.setCmd w).status = s.status := rfl
@[simp] theorem State.setCmd_args (w : Word) : (s.setCmd w).args = s.args := rfl
@[simp] theorem State.setCmd_dc (w : Word) : (s.setCmd w).dc = s.dc := rfl
@[simp] theorem State.setCmd_mem (w : Word) : (s.setCmd w).mem = s.mem := rfl
@[simp] theorem State.setCmd_draws (w : Word) : (s.setCmd w).draws = s.draws := rfl
@[simp] theorem State.setCmd_pending (w : Word) : (s.setCmd w).pending = s.pending := rfl
@[simp] theorem State.setCmd_hostData (w : Word) : (s.setCmd w).hostData = s.hostData := rfl

/-! ## `setStatus` -/

@[simp] theorem State.setStatus_params (w : Word) : (s.setStatus w).params = s.params := rfl
@[simp] theorem State.setStatus_cmd (w : Word) : (s.setStatus w).cmd = s.cmd := rfl
@[simp] theorem State.setStatus_status (w : Word) : (s.setStatus w).status = w := rfl
@[simp] theorem State.setStatus_args (w : Word) : (s.setStatus w).args = s.args := rfl
@[simp] theorem State.setStatus_dc (w : Word) : (s.setStatus w).dc = s.dc := rfl
@[simp] theorem State.setStatus_mem (w : Word) : (s.setStatus w).mem = s.mem := rfl
@[simp] theorem State.setStatus_draws (w : Word) : (s.setStatus w).draws = s.draws := rfl
@[simp] theorem State.setStatus_pending (w : Word) : (s.setStatus w).pending = s.pending := rfl
@[simp] theorem State.setStatus_hostData (w : Word) : (s.setStatus w).hostData = s.hostData := rfl

/-! ## `setArgs` -/

@[simp] theorem State.setArgs_params (r : Args) : (s.setArgs r).params = s.params := rfl
@[simp] theorem State.setArgs_cmd (r : Args) : (s.setArgs r).cmd = s.cmd := rfl
@[simp] theorem State.setArgs_status (r : Args) : (s.setArgs r).status = s.status := rfl
@[simp] theorem State.setArgs_args (r : Args) : (s.setArgs r).args = r := rfl
@[simp] theorem State.setArgs_dc (r : Args) : (s.setArgs r).dc = s.dc := rfl
@[simp] theorem State.setArgs_mem (r : Args) : (s.setArgs r).mem = s.mem := rfl
@[simp] theorem State.setArgs_draws (r : Args) : (s.setArgs r).draws = s.draws := rfl
@[simp] theorem State.setArgs_pending (r : Args) : (s.setArgs r).pending = s.pending := rfl
@[simp] theorem State.setArgs_hostData (r : Args) : (s.setArgs r).hostData = s.hostData := rfl

/-! ## `setDc` -/

@[simp] theorem State.setDc_params (v : BitVec 16) : (s.setDc v).params = s.params := rfl
@[simp] theorem State.setDc_cmd (v : BitVec 16) : (s.setDc v).cmd = s.cmd := rfl
@[simp] theorem State.setDc_status (v : BitVec 16) : (s.setDc v).status = s.status := rfl
@[simp] theorem State.setDc_args (v : BitVec 16) : (s.setDc v).args = s.args := rfl
@[simp] theorem State.setDc_dc (v : BitVec 16) : (s.setDc v).dc = v := rfl
@[simp] theorem State.setDc_mem (v : BitVec 16) : (s.setDc v).mem = s.mem := rfl
@[simp] theorem State.setDc_draws (v : BitVec 16) : (s.setDc v).draws = s.draws := rfl
@[simp] theorem State.setDc_pending (v : BitVec 16) : (s.setDc v).pending = s.pending := rfl
@[simp] theorem State.setDc_hostData (v : BitVec 16) : (s.setDc v).hostData = s.hostData := rfl

/-! ## `setMem` -/

@[simp] theorem State.setMem_params (m : Memory) : (s.setMem m).params = s.params := rfl
@[simp] theorem State.setMem_cmd (m : Memory) : (s.setMem m).cmd = s.cmd := rfl
@[simp] theorem State.setMem_status (m : Memory) : (s.setMem m).status = s.status := rfl
@[simp] theorem State.setMem_args (m : Memory) : (s.setMem m).args = s.args := rfl
@[simp] theorem State.setMem_dc (m : Memory) : (s.setMem m).dc = s.dc := rfl
@[simp] theorem State.setMem_mem (m : Memory) : (s.setMem m).mem = m := rfl
@[simp] theorem State.setMem_draws (m : Memory) : (s.setMem m).draws = s.draws := rfl
@[simp] theorem State.setMem_pending (m : Memory) : (s.setMem m).pending = s.pending := rfl
@[simp] theorem State.setMem_hostData (m : Memory) : (s.setMem m).hostData = s.hostData := rfl

/-! ## `setDraws` -/

@[simp] theorem State.setDraws_params (n : Nat) : (s.setDraws n).params = s.params := rfl
@[simp] theorem State.setDraws_cmd (n : Nat) : (s.setDraws n).cmd = s.cmd := rfl
@[simp] theorem State.setDraws_status (n : Nat) : (s.setDraws n).status = s.status := rfl
@[simp] theorem State.setDraws_args (n : Nat) : (s.setDraws n).args = s.args := rfl
@[simp] theorem State.setDraws_dc (n : Nat) : (s.setDraws n).dc = s.dc := rfl
@[simp] theorem State.setDraws_mem (n : Nat) : (s.setDraws n).mem = s.mem := rfl
@[simp] theorem State.setDraws_draws (n : Nat) : (s.setDraws n).draws = n := rfl
@[simp] theorem State.setDraws_pending (n : Nat) : (s.setDraws n).pending = s.pending := rfl
@[simp] theorem State.setDraws_hostData (n : Nat) : (s.setDraws n).hostData = s.hostData := rfl

/-! ## `setPending` -/

@[simp] theorem State.setPending_params (q : List HostAction) : (s.setPending q).params = s.params := rfl
@[simp] theorem State.setPending_cmd (q : List HostAction) : (s.setPending q).cmd = s.cmd := rfl
@[simp] theorem State.setPending_status (q : List HostAction) : (s.setPending q).status = s.status := rfl
@[simp] theorem State.setPending_args (q : List HostAction) : (s.setPending q).args = s.args := rfl
@[simp] theorem State.setPending_dc (q : List HostAction) : (s.setPending q).dc = s.dc := rfl
@[simp] theorem State.setPending_mem (q : List HostAction) : (s.setPending q).mem = s.mem := rfl
@[simp] theorem State.setPending_draws (q : List HostAction) : (s.setPending q).draws = s.draws := rfl
@[simp] theorem State.setPending_pending (q : List HostAction) : (s.setPending q).pending = q := rfl
@[simp] theorem State.setPending_hostData (q : List HostAction) : (s.setPending q).hostData = s.hostData := rfl

/-! ## `setHostData` -/

@[simp] theorem State.setHostData_params (w : Word) : (s.setHostData w).params = s.params := rfl
@[simp] theorem State.setHostData_cmd (w : Word) : (s.setHostData w).cmd = s.cmd := rfl
@[simp] theorem State.setHostData_status (w : Word) : (s.setHostData w).status = s.status := rfl
@[simp] theorem State.setHostData_args (w : Word) : (s.setHostData w).args = s.args := rfl
@[simp] theorem State.setHostData_dc (w : Word) : (s.setHostData w).dc = s.dc := rfl
@[simp] theorem State.setHostData_mem (w : Word) : (s.setHostData w).mem = s.mem := rfl
@[simp] theorem State.setHostData_draws (w : Word) : (s.setHostData w).draws = s.draws := rfl
@[simp] theorem State.setHostData_pending (w : Word) : (s.setHostData w).pending = s.pending := rfl
@[simp] theorem State.setHostData_hostData (w : Word) : (s.setHostData w).hostData = w := rfl

/-! ## `paint` -/

@[simp] theorem State.paint_params (ws : List PixelWrite) : (s.paint ws).params = s.params := rfl
@[simp] theorem State.paint_cmd (ws : List PixelWrite) : (s.paint ws).cmd = s.cmd := rfl
@[simp] theorem State.paint_status (ws : List PixelWrite) : (s.paint ws).status = s.status := rfl
@[simp] theorem State.paint_args (ws : List PixelWrite) : (s.paint ws).args = s.args := rfl
@[simp] theorem State.paint_dc (ws : List PixelWrite) : (s.paint ws).dc = s.dc := rfl
@[simp] theorem State.paint_mem (ws : List PixelWrite) : (s.paint ws).mem = putPixels s.params s.mem ws := rfl
@[simp] theorem State.paint_draws (ws : List PixelWrite) : (s.paint ws).draws = s.draws := rfl
@[simp] theorem State.paint_pending (ws : List PixelWrite) : (s.paint ws).pending = s.pending := rfl
@[simp] theorem State.paint_hostData (ws : List PixelWrite) : (s.paint ws).hostData = s.hostData := rfl

/-! ## `latch` -/

@[simp] theorem State.latch_params : s.latch.params = s.params := rfl
@[simp] theorem State.latch_cmd : s.latch.cmd = s.cmd := rfl
@[simp] theorem State.latch_status : s.latch.status = s.status := rfl
@[simp] theorem State.latch_args : s.latch.args = s.args := rfl
@[simp] theorem State.latch_dc : s.latch.dc = s.drawColors := rfl
@[simp] theorem State.latch_mem : s.latch.mem = s.mem := rfl
@[simp] theorem State.latch_draws : s.latch.draws = s.draws + 1 := rfl
@[simp] theorem State.latch_pending : s.latch.pending = s.pending := rfl
@[simp] theorem State.latch_hostData : s.latch.hostData = s.hostData := rfl

/-! ## `raise` -/

@[simp] theorem State.raise_params (e : Exception) : (s.raise e).params = s.params := rfl
@[simp] theorem State.raise_cmd (e : Exception) : (s.raise e).cmd = s.cmd := rfl
@[simp] theorem State.raise_status (e : Exception) : (s.raise e).status = s.status ||| e.mask := rfl
@[simp] theorem State.raise_args (e : Exception) : (s.raise e).args = s.args := rfl
@[simp] theorem State.raise_dc (e : Exception) : (s.raise e).dc = s.dc := rfl
@[simp] theorem State.raise_mem (e : Exception) : (s.raise e).mem = s.mem := rfl
@[simp] theorem State.raise_draws (e : Exception) : (s.raise e).draws = s.draws := rfl
@[simp] theorem State.raise_pending (e : Exception) : (s.raise e).pending = s.pending := rfl
@[simp] theorem State.raise_hostData (e : Exception) : (s.raise e).hostData = s.hostData := rfl

/-! ## `resetBlock` -/

@[simp] theorem resetBlock_params : (resetBlock s).params = s.params := rfl
@[simp] theorem resetBlock_cmd : (resetBlock s).cmd = Config.freeWord ⟨s.draws, .resetCmd⟩ := rfl
@[simp] theorem resetBlock_status : (resetBlock s).status = 0 := rfl
@[simp] theorem resetBlock_args : (resetBlock s).args = freeArgs s.draws := rfl
@[simp] theorem resetBlock_dc : (resetBlock s).dc = (Config.freeWord ⟨s.draws, .resetDc⟩).setWidth 16 := rfl
@[simp] theorem resetBlock_mem : (resetBlock s).mem = s.mem := rfl
@[simp] theorem resetBlock_draws : (resetBlock s).draws = s.draws + 1 := rfl
@[simp] theorem resetBlock_pending : (resetBlock s).pending = s.pending := rfl
@[simp] theorem resetBlock_hostData : (resetBlock s).hostData = s.hostData := rfl

/-! ## The argument registers -/

@[simp] theorem Args.get_set_same (r : Args) (i : Fin 8) (w : Word) : (r.set i w).get i = w := by
  fin_cases i <;> rfl

theorem Args.get_set_other (r : Args) (i j : Fin 8) (w : Word) (h : j ≠ i) : (r.set i w).get j = r.get j := by
  fin_cases i <;> fin_cases j <;> first | exact absurd rfl h | rfl

/-- The operands do not see the update of another field. -/
@[simp] theorem sArg_latch (i : Fin 8) : sArg s.latch i = sArg s i := rfl
@[simp] theorem uArg_latch (i : Fin 8) : uArg s.latch i = uArg s i := rfl
@[simp] theorem sArg_setMem (m : Memory) (i : Fin 8) : sArg (s.setMem m) i = sArg s i := rfl
@[simp] theorem uArg_setMem (m : Memory) (i : Fin 8) : uArg (s.setMem m) i = uArg s i := rfl
@[simp] theorem sArg_setStatus (w : Word) (i : Fin 8) : sArg (s.setStatus w) i = sArg s i := rfl
@[simp] theorem uArg_setStatus (w : Word) (i : Fin 8) : uArg (s.setStatus w) i = uArg s i := rfl

end Sys2Proof.Machine
end

