-- ==== Sys2Proof/Laws/Pixels.lean ====
section
/-! SUPPORT. Packed pixels: where a pixel lies, what `PutPixel` and a sequence of `PutPixel` calls do. -/

namespace Sys2Proof.Machine

open Sys2Proof

/-! ## Integers and loops -/

/-- The arithmetic right shift is the floor of the quotient (R11). -/
theorem asr_eq_div (a : Int) (k : Nat) : asr a k = a / (2 ^ k : Nat) := Int.shiftRight_eq_div_pow a k

theorem asr_one (a : Int) : asr a 1 = a / 2 := asr_eq_div a 1

theorem asr_two (a : Int) : asr a 2 = a / 4 := asr_eq_div a 2

theorem asr_three (a : Int) : asr a 3 = a / 8 := asr_eq_div a 3

@[simp] theorem mem_intRange {lo hi v : Int} : v ∈ intRange lo hi ↔ lo ≤ v ∧ v < hi := by
  simp only [intRange, List.mem_map, List.mem_range]
  constructor
  · rintro ⟨k, hk, rfl⟩; omega
  · rintro ⟨h1, h2⟩; exact ⟨(v - lo).toNat, by omega, by omega⟩

/-! ## Where a pixel lies (R80) -/

theorem fbIndex_eq (p : Params) (x y : Int) : fbIndex p x y = ((p.width : Int) * y + x) / 4 := by
  simp [fbIndex, asr_two]

theorem fbShift_eq (x : Int) : fbShift x = 2 * (x % 4).toNat := by
  simp [fbShift, lowBits, Nat.shiftLeft_eq, Nat.mul_comm]

/-- With `WIDTH` a multiple of 4, `FbIndex(x, y) = WIDTH/4*y + (x >> 2)` (R80). -/
theorem fbIndex_split {p : Params} (h : p.width % 4 = 0) (x y : Int) :
    fbIndex p x y = ((p.width / 4 : Nat) : Int) * y + x / 4 := by
  obtain ⟨w, hw⟩ : ∃ w, p.width = 4 * w := ⟨p.width / 4, by omega⟩
  rw [fbIndex_eq, hw]
  have : ((4 * w : Nat) : Int) * y + x = x + 4 * (w * y) := by push_cast; ring
  rw [this, Int.add_mul_ediv_left _ _ (by decide)]
  simp [Int.add_comm]

theorem fbBytes_eq {p : Params} (h : p.width % 4 = 0) : p.fbBytes = p.width / 4 * p.height := by
  obtain ⟨w, hw⟩ : ∃ w, p.width = 4 * w := ⟨p.width / 4, by omega⟩
  simp [Params.fbBytes, hw, Nat.mul_assoc]

/-- A canvas pixel's byte index is one of the framebuffer's. -/
theorem fbIndex_bounds {p : Params} (h : p.width % 4 = 0) {x y : Int} (hc : InCanvas p x y) :
    0 ≤ fbIndex p x y ∧ fbIndex p x y < (p.fbBytes : Int) := by
  obtain ⟨hx0, hx1, hy0, hy1⟩ := hc
  rw [fbIndex_split h, fbBytes_eq h]
  set w : Nat := p.width / 4
  have hw : p.width = 4 * w := by omega
  have hxw : x / 4 + 1 ≤ (w : Int) := by omega
  have hx4 : 0 ≤ x / 4 := by omega
  have h1 : 0 ≤ (w : Int) * y := Int.mul_nonneg (by omega) hy0
  have h2 : (w : Int) * (y + 1) ≤ (w : Int) * (p.height : Int) := Int.mul_le_mul_of_nonneg_left (by omega) (by omega)
  push_cast
  constructor <;> nlinarith

theorem pixelAddr_toInt {p : Params} (h : p.width % 4 = 0) {x y : Int} (hc : InCanvas p x y) :
    (pixelAddr p x y : Int) = (p.fbBase : Int) + fbIndex p x y := by
  have := fbIndex_bounds h hc
  simp only [pixelAddr]
  omega

/-- A canvas pixel lies in a framebuffer byte. -/
theorem pixelAddr_inFramebuffer {p : Params} (h : p.width % 4 = 0) {x y : Int} (hc : InCanvas p x y) :
    p.InFramebuffer (pixelAddr p x y) := by
  have h1 := fbIndex_bounds h hc
  have h2 := pixelAddr_toInt h hc
  constructor <;> omega

/-- Two canvas pixels that share the byte and the shift are one pixel (R80). -/
theorem pixel_unique {p : Params} (h : p.width % 4 = 0) {x y x' y' : Int} (hc : InCanvas p x y)
    (hc' : InCanvas p x' y') (ha : pixelAddr p x y = pixelAddr p x' y') (hs : fbShift x = fbShift x') :
    x = x' ∧ y = y' := by
  have e1 := pixelAddr_toInt h hc
  have e2 := pixelAddr_toInt h hc'
  rw [ha, e2] at e1
  rw [fbIndex_split h, fbIndex_split h] at e1
  rw [fbShift_eq, fbShift_eq] at hs
  obtain ⟨hx0, hx1, hy0, hy1⟩ := hc
  obtain ⟨hx0', hx1', hy0', hy1'⟩ := hc'
  set w : Nat := p.width / 4
  have hw : p.width = 4 * w := by omega
  have e : (w : Int) * y' + x' / 4 = (w : Int) * y + x / 4 := by omega
  have hy : y = y' := by
    rcases lt_trichotomy y y' with hlt | heq | hgt
    · have : (w : Int) * (y + 1) ≤ w * y' := Int.mul_le_mul_of_nonneg_left (by omega) (by omega)
      have h3 : x / 4 < (w : Int) := by omega
      have h4 : 0 ≤ x' / 4 := by omega
      nlinarith
    · exact heq
    · have : (w : Int) * (y' + 1) ≤ w * y := Int.mul_le_mul_of_nonneg_left (by omega) (by omega)
      have h3 : x' / 4 < (w : Int) := by omega
      have h4 : 0 ≤ x / 4 := by omega
      nlinarith
  subst hy
  have : x / 4 = x' / 4 := by omega
  have : x % 4 = x' % 4 := by omega
  exact ⟨by omega, rfl⟩

/-! ## The bits of one pixel -/

theorem fbShift_cases (x : Int) : fbShift x = 0 ∨ fbShift x = 2 ∨ fbShift x = 4 ∨ fbShift x = 6 := by
  rw [fbShift_eq]; omega

/-- The pixel written reads as the color. -/
theorem insertColor_same (b : Byte) (c : Color) {k : Nat} (hk : k = 0 ∨ k = 2 ∨ k = 4 ∨ k = 6) :
    ((insertColor b c k >>> k).setWidth 2 : Color) = c := by
  rcases hk with rfl | rfl | rfl | rfl <;> revert b c <;> decide +kernel

/-- The other three pixels of the byte are preserved (R82). -/
theorem insertColor_other (b : Byte) (c : Color) {k j : Nat} (hk : k = 0 ∨ k = 2 ∨ k = 4 ∨ k = 6)
    (hj : j = 0 ∨ j = 2 ∨ j = 4 ∨ j = 6) (h : j ≠ k) :
    ((insertColor b c k >>> j).setWidth 2 : Color) = (b >>> j).setWidth 2 := by
  rcases hk with rfl | rfl | rfl | rfl <;> rcases hj with rfl | rfl | rfl | rfl <;>
    first | exact absurd rfl h | (clear h; revert b c; decide +kernel)

/-! ## `PutPixel` -/

theorem putPixel_wf {p : Params} {m : Memory} (hm : m.wf = true) (c : Color) (x y : Int) :
    (putPixel p m c x y).wf = true := Memory.write_wf hm _ _

/-- Every byte but the pixel's is as before. -/
theorem read_putPixel_other {p : Params} {m : Memory} (hm : m.wf = true) (c : Color) (x y : Int) {a : Nat}
    (h : a ≠ pixelAddr p x y) : (putPixel p m c x y).read a = m.read a :=
  Memory.read_write_other hm _ h

/-- `PutPixel(c, x, y)`: afterwards `Pix(x, y) = c`, and every other canvas pixel is unchanged (R82). -/
theorem pix_putPixel {p : Params} (hw : p.width % 4 = 0) {m : Memory} (hm : m.wf = true) (c : Color)
    {x y x' y' : Int} (hc : InCanvas p x y) (hc' : InCanvas p x' y') :
    pix p (putPixel p m c x y) x' y' = if x' = x ∧ y' = y then c else pix p m x' y' := by
  by_cases ha : pixelAddr p x' y' = pixelAddr p x y
  · simp only [pix, putPixel, ha, Memory.read_write_same hm]
    by_cases hs : fbShift x' = fbShift x
    · obtain ⟨rfl, rfl⟩ := pixel_unique hw hc' hc ha hs
      simp [insertColor_same _ _ (fbShift_cases _)]
    · have hne : ¬ (x' = x ∧ y' = y) := fun h => hs (by rw [h.1])
      simp only [hne, if_false]
      exact insertColor_other _ _ (fbShift_cases _) (fbShift_cases _) hs
  · have hne : ¬ (x' = x ∧ y' = y) := fun h => ha (by rw [h.1, h.2])
    simp only [hne, if_false, pix, read_putPixel_other hm c x y ha]

/-! ## Sequences of `PutPixel` calls -/

@[simp] theorem putPixels_nil (p : Params) (m : Memory) : putPixels p m [] = m := rfl

@[simp] theorem putPixels_cons (p : Params) (m : Memory) (w : PixelWrite) (ws : List PixelWrite) :
    putPixels p m (w :: ws) = putPixels p (putPixel p m w.c w.x w.y) ws := rfl

theorem putPixels_append (p : Params) (m : Memory) (ws vs : List PixelWrite) :
    putPixels p m (ws ++ vs) = putPixels p (putPixels p m ws) vs := List.foldl_append

theorem putPixels_wf {p : Params} {m : Memory} (hm : m.wf = true) (ws : List PixelWrite) :
    (putPixels p m ws).wf = true := by
  induction ws generalizing m with
  | nil => exact hm
  | cons w ws ih => exact ih (putPixel_wf hm _ _ _)

/-- Every byte that is no written pixel's is as before. -/
theorem read_putPixels_other {p : Params} {m : Memory} (hm : m.wf = true) {ws : List PixelWrite} {a : Nat}
    (h : ∀ w ∈ ws, a ≠ pixelAddr p w.x w.y) : (putPixels p m ws).read a = m.read a := by
  induction ws generalizing m with
  | nil => rfl
  | cons w ws ih =>
    rw [putPixels_cons, ih (putPixel_wf hm _ _ _) fun v hv => h v (by simp [hv]),
      read_putPixel_other hm _ _ _ (h w (by simp))]

/-- Every byte outside the framebuffer is as before, when every write is on the canvas (R45). -/
theorem read_putPixels_outside {p : Params} (hw : p.width % 4 = 0) {m : Memory} (hm : m.wf = true)
    {ws : List PixelWrite} (hc : ∀ w ∈ ws, InCanvas p w.x w.y) {a : Nat} (h : ¬ p.InFramebuffer a) :
    (putPixels p m ws).read a = m.read a :=
  read_putPixels_other hm fun w hws e => h (e ▸ pixelAddr_inFramebuffer hw (hc w hws))

/-- The cells of the memory after the writes: old ones, or framebuffer bytes. -/
theorem mem_putPixels {p : Params} (hw : p.width % 4 = 0) {m : Memory} {ws : List PixelWrite}
    (hc : ∀ w ∈ ws, InCanvas p w.x w.y) {c : Host.Cell} (h : c ∈ putPixels p m ws) :
    c ∈ m ∨ p.InFramebuffer c.1 := by
  induction ws generalizing m with
  | nil => exact .inl h
  | cons w ws ih =>
    rcases ih (fun v hv => hc v (by simp [hv])) h with h | h
    · rcases Memory.mem_write h with h | h
      · exact .inl h
      · exact .inr (h ▸ pixelAddr_inFramebuffer hw (hc w (by simp)))
    · exact .inr h

/-- The color of the last write to a pixel, if there is one. -/
def lastColor : List PixelWrite → Int → Int → Option Color
  | [], _, _ => none
  | w :: ws, x, y => (lastColor ws x y).or (if x = w.x ∧ y = w.y then some w.c else none)

@[simp] theorem lastColor_nil (x y : Int) : lastColor [] x y = none := rfl

theorem lastColor_append (ws vs : List PixelWrite) (x y : Int) :
    lastColor (ws ++ vs) x y = (lastColor vs x y).or (lastColor ws x y) := by
  induction ws with
  | nil => simp
  | cons w ws ih => simp [lastColor, ih, Option.or_assoc]

/-- No write goes to the pixel. -/
theorem lastColor_eq_none {ws : List PixelWrite} {x y : Int} :
    lastColor ws x y = none ↔ ∀ w ∈ ws, ¬ (x = w.x ∧ y = w.y) := by
  induction ws with
  | nil => simp
  | cons w ws ih => simp [lastColor, Option.or_eq_none_iff, ih, and_comm]

/-- The last color is that of some write to the pixel. -/
theorem lastColor_mem {ws : List PixelWrite} {x y : Int} {c : Color} (h : lastColor ws x y = some c) :
    ⟨c, x, y⟩ ∈ ws := by
  induction ws with
  | nil => simp at h
  | cons w ws ih =>
    simp only [lastColor, Option.or_eq_some_iff] at h
    rcases h with h | ⟨_, h⟩
    · exact List.mem_cons_of_mem _ (ih h)
    · split_ifs at h with hw
      obtain ⟨rfl, rfl⟩ := hw
      simp only [Option.some.injEq] at h
      subst h
      exact List.mem_cons_self

/-- Where all writes to a pixel have one color, and there is one, that is the last color. -/
theorem lastColor_eq_some {ws : List PixelWrite} {x y : Int} {c : Color} (hmem : ∃ d, ⟨d, x, y⟩ ∈ ws)
    (hc : ∀ d, ⟨d, x, y⟩ ∈ ws → d = c) : lastColor ws x y = some c := by
  cases h : lastColor ws x y with
  | none =>
    obtain ⟨d, hd⟩ := hmem
    exact absurd ⟨rfl, rfl⟩ (lastColor_eq_none.1 h _ hd)
  | some d => rw [hc d (lastColor_mem h)]

/-- What a canvas pixel holds after a sequence of `PutPixel` calls on the canvas: the color of the last write to
it, or its old color. -/
theorem pix_putPixels {p : Params} (hw : p.width % 4 = 0) {m : Memory} (hm : m.wf = true) {ws : List PixelWrite}
    (hc : ∀ w ∈ ws, InCanvas p w.x w.y) {x y : Int} (hxy : InCanvas p x y) :
    pix p (putPixels p m ws) x y = (lastColor ws x y).getD (pix p m x y) := by
  induction ws generalizing m with
  | nil => rfl
  | cons w ws ih =>
    rw [putPixels_cons, ih (putPixel_wf hm _ _ _) (fun v hv => hc v (by simp [hv])),
      pix_putPixel hw hm _ (hc w (by simp)) hxy]
    simp only [lastColor]
    cases lastColor ws x y
    · simp only [Option.none_or, Option.getD_none]
      split_ifs <;> rfl
    · simp

/-! ## Spans, columns and clipped writes -/

@[simp] theorem mem_pixelClipped {p : Params} {c : Color} {x y : Int} {w : PixelWrite} :
    w ∈ pixelClipped p c x y ↔ InCanvas p x y ∧ w = ⟨c, x, y⟩ := by
  unfold pixelClipped; split_ifs with h
  · exact ⟨fun hw => ⟨h, List.mem_singleton.1 hw⟩, fun hw => List.mem_singleton.2 hw.2⟩
  · simp only [List.not_mem_nil, h, false_and]

@[simp] theorem mem_span {c : Color} {x0 y x1 : Int} {w : PixelWrite} :
    w ∈ span c x0 y x1 ↔ x0 ≤ w.x ∧ w.x < x1 ∧ w.y = y ∧ w.c = c := by
  obtain ⟨d, u, v⟩ := w
  simp only [span, List.mem_map, mem_intRange, PixelWrite.mk.injEq]
  constructor
  · rintro ⟨_, h, rfl, rfl, rfl⟩; exact ⟨h.1, h.2, rfl, rfl⟩
  · rintro ⟨h1, h2, rfl, rfl⟩; exact ⟨_, ⟨h1, h2⟩, rfl, rfl, rfl⟩

@[simp] theorem mem_column {c : Color} {x y0 y1 : Int} {w : PixelWrite} :
    w ∈ column c x y0 y1 ↔ y0 ≤ w.y ∧ w.y < y1 ∧ w.x = x ∧ w.c = c := by
  obtain ⟨d, u, v⟩ := w
  simp only [column, List.mem_map, mem_intRange, PixelWrite.mk.injEq]
  constructor
  · rintro ⟨_, h, rfl, rfl, rfl⟩; exact ⟨h.1, h.2, rfl, rfl⟩
  · rintro ⟨h1, h2, rfl, rfl⟩; exact ⟨_, ⟨h1, h2⟩, rfl, rfl, rfl⟩

/-- The clipped span writes the span's pixels that lie on the canvas (R102). -/
@[simp] theorem mem_spanClipped {p : Params} {c : Color} {x0 y x1 : Int} {w : PixelWrite} :
    w ∈ spanClipped p c x0 y x1 ↔ InCanvas p w.x w.y ∧ x0 ≤ w.x ∧ w.x < x1 ∧ w.y = y ∧ w.c = c := by
  unfold spanClipped
  split_ifs with h1 h2
  · rw [mem_span]
    constructor
    · rintro ⟨a, b, rfl, rfl⟩; refine ⟨⟨?_, ?_, h1⟩, ?_, ?_, rfl, rfl⟩ <;> omega
    · rintro ⟨⟨a, b, _⟩, d, e, rfl, rfl⟩; refine ⟨?_, ?_, rfl, rfl⟩ <;> omega
  · simp only [List.not_mem_nil, false_iff]
    rintro ⟨⟨a, b, _⟩, d, e, _⟩; omega
  · simp only [List.not_mem_nil, false_iff]
    rintro ⟨⟨_, _, h⟩, _, _, rfl, _⟩; exact h1 h

end Sys2Proof.Machine
end

