-- ==== Sys2Proof/Laws/Commands.lean ====
section
/-! SUPPORT. What the pixel writes of each drawing command can be: each lies on the canvas (R45), and the writes of
HLINE, VLINE and RECT's parts are exactly these pixels. -/

namespace Sys2Proof.Machine

open Sys2Proof

/-! ## Spans, lines and rectangles -/

theorem mem_hlineWrites {p : Params} {dc : BitVec 16} {x y len : Int} {w : PixelWrite} :
    w ∈ hlineWrites p dc x y len ↔
      InCanvas p w.x w.y ∧ x ≤ w.x ∧ w.x < x + len ∧ w.y = y ∧ shapeColor (nib dc 0) = some w.c := by
  unfold hlineWrites
  split
  · simp_all
  · next c h => rw [mem_spanClipped, h, Option.some.injEq]; tauto

theorem mem_vlineWrites {p : Params} {dc : BitVec 16} {x y len : Int} {w : PixelWrite} :
    w ∈ vlineWrites p dc x y len ↔
      InCanvas p w.x w.y ∧ w.x = x ∧ y ≤ w.y ∧ w.y < y + len ∧ shapeColor (nib dc 0) = some w.c := by
  unfold vlineWrites
  split_ifs with h0
  · simp only [List.not_mem_nil, false_iff]
    rintro ⟨⟨_, _, _, _⟩, rfl, _, _, _⟩; omega
  · split
    · simp_all
    · next c h =>
      rw [mem_column, h, Option.some.injEq]
      constructor
      · rintro ⟨a, b, rfl, rfl⟩; refine ⟨⟨?_, ?_, ?_, ?_⟩, rfl, ?_, ?_, rfl⟩ <;> omega
      · rintro ⟨⟨_, _, _, _⟩, rfl, _, _, rfl⟩; refine ⟨?_, ?_, rfl, rfl⟩ <;> omega

theorem mem_fillWrites {c : Color} {fx0 fy0 fx1 fy1 : Int} {w : PixelWrite} :
    w ∈ fillWrites c fx0 fy0 fx1 fy1 ↔ fx0 ≤ w.x ∧ w.x < fx1 ∧ fy0 ≤ w.y ∧ w.y < fy1 ∧ w.c = c := by
  unfold fillWrites
  split_ifs with h
  · simp only [List.mem_flatMap, mem_intRange, mem_span]
    constructor
    · rintro ⟨_, ⟨a, b⟩, d, e, rfl, rfl⟩; exact ⟨d, e, a, b, rfl⟩
    · rintro ⟨a, b, d, e, rfl⟩; exact ⟨_, ⟨d, e⟩, a, b, rfl, rfl⟩
  · simp only [List.not_mem_nil, false_iff]
    rintro ⟨a, b, _⟩; omega

/-- RECT's stroke writes lie in the clamped bounds, on the border of the unclamped rectangle. -/
theorem mem_strokeWrites {p : Params} {c : Color} {x y width height : Int} {w : PixelWrite}
    (h : w ∈ strokeWrites p c x y width height (max 0 x) (max 0 y) (min (p.width : Int) (x + width)))
    (hx : max 0 x < min (p.width : Int) (x + width)) (hy : max 0 y < min (p.height : Int) (y + height)) :
    InCanvas p w.x w.y ∧ x ≤ w.x ∧ w.x < x + width ∧ y ≤ w.y ∧ w.y < y + height ∧ w.c = c ∧
      (w.x = x ∨ w.x = x + width - 1 ∨ w.y = y ∨ w.y = y + height - 1) := by
  simp only [strokeWrites, List.mem_append] at h
  rcases h with ((h | h) | h) | h <;> split_ifs at h <;> simp only [mem_column, mem_span, List.not_mem_nil] at h <;>
    obtain ⟨h1, h2, h3, h4⟩ := h <;> refine ⟨⟨?_, ?_, ?_, ?_⟩, ?_, ?_, ?_, ?_, h4, ?_⟩ <;> omega

theorem rectWrites_inCanvas {p : Params} {f st : Option Color} {x y width height : Int} :
    ∀ w ∈ rectWrites p f st x y width height, InCanvas p w.x w.y := by
  intro w hw
  unfold rectWrites at hw
  dsimp only at hw
  split_ifs at hw with h0
  · simp at hw
  · rw [List.mem_append] at hw
    rcases hw with hw | hw
    · revert hw; split
      · simp
      · rw [mem_fillWrites]; rintro ⟨_, _, _, _, _⟩; refine ⟨?_, ?_, ?_, ?_⟩ <;> omega
      · rw [mem_fillWrites]; rintro ⟨_, _, _, _, _⟩; refine ⟨?_, ?_, ?_, ?_⟩ <;> omega
    · cases st with
      | none => simp at hw
      | some c => exact (mem_strokeWrites hw (by omega) (by omega)).1

/-! ## The ellipse -/

theorem plot4_inCanvas {p : Params} {o : Oval} {X Y : Int} : ∀ w ∈ plot4 p o X Y, InCanvas p w.x w.y := by
  intro w hw
  simp only [plot4, List.mem_append, mem_pixelClipped] at hw
  rcases hw with ((⟨h, rfl⟩ | ⟨h, rfl⟩) | ⟨h, rfl⟩) | ⟨h, rfl⟩ <;> exact h

theorem fill2_inCanvas {p : Params} {o : Oval} {lo hi Y : Int} : ∀ w ∈ fill2 p o lo hi Y, InCanvas p w.x w.y := by
  intro w hw
  unfold fill2 at hw
  split at hw
  · simp at hw
  · simp only [List.mem_append, mem_spanClipped] at hw
    rcases hw with h | h <;> exact h.1

theorem region1_inCanvas {p : Params} {o : Oval} :
    ∀ {n : Nat} {t : Arc}, ∀ w ∈ region1 p o n t, InCanvas p w.x w.y
  | 0, _, _, hw => by simp [region1] at hw
  | n + 1, t, w, hw => by
    simp only [region1] at hw
    split_ifs at hw
    · simp only [List.mem_append] at hw
      rcases hw with (h | h) | h
      · exact plot4_inCanvas w h
      · exact fill2_inCanvas w h
      · exact region1_inCanvas w h
    · simp at hw

theorem region2_inCanvas {p : Params} {o : Oval} :
    ∀ {n : Nat} {t : Arc}, ∀ w ∈ region2 p o n t, InCanvas p w.x w.y
  | 0, _, _, hw => by simp [region2] at hw
  | n + 1, t, w, hw => by
    simp only [region2] at hw
    split_ifs at hw
    · simp only [List.mem_append] at hw
      rcases hw with (h | h) | h
      · exact plot4_inCanvas w h
      · simp only [fillLeft] at h
        split_ifs at h
        · exact fill2_inCanvas w h
        · simp at h
      · exact region2_inCanvas w h
    · simp at hw

/-- OVAL writes only on the canvas (R127). -/
theorem ovalWrites_inCanvas {p : Params} {dc : BitVec 16} {x y width height : Int} :
    ∀ w ∈ ovalWrites p dc x y width height, InCanvas p w.x w.y := by
  intro w hw
  simp only [ovalWrites] at hw
  split_ifs at hw
  · simp at hw
  · simp at hw
  · simp only [arcWrites, List.mem_append] at hw
    exact hw.elim (region1_inCanvas w) (region2_inCanvas w)

/-! ## The line -/

theorem mem_lineWrites {p : Params} {dc : BitVec 16} {x1 y1 x2 y2 : Int} {w : PixelWrite} :
    w ∈ lineWrites p dc x1 y1 x2 y2 ↔
      InCanvas p w.x w.y ∧ (w.x, w.y) ∈ linePoints (Segment.normalise ⟨x1, y1, x2, y2⟩) ∧
        shapeColor (nib dc 0) = some w.c := by
  unfold lineWrites
  split
  · simp_all
  · next c h =>
    simp only [List.mem_flatMap, mem_pixelClipped, h, Option.some.injEq]
    constructor
    · rintro ⟨q, hq, hc, rfl⟩; exact ⟨hc, hq, rfl⟩
    · rintro ⟨hc, hq, rfl⟩; exact ⟨_, hq, hc, rfl⟩

/-! ## Blits and text -/

/-- The local pixels of the clip window (R151). -/
theorem Sprite.mem_window {p : Params} {b : Sprite} {c r : Int} :
    (c, r) ∈ b.window p ↔ (b.cxmin ≤ c ∧ c < b.cxmax p) ∧ b.cymin ≤ r ∧ r < b.cymax p := by
  simp only [Sprite.window, List.mem_flatMap, List.mem_map, mem_intRange, Prod.mk.injEq]
  constructor
  · rintro ⟨_, h, _, h', rfl, rfl⟩; exact ⟨h', h⟩
  · rintro ⟨h', h⟩; exact ⟨_, h, _, h', rfl, rfl⟩

/-- The window's pixels are those of the extent that land on the canvas (R151, R155). -/
theorem Sprite.mem_window_iff {p : Params} {b : Sprite} {c r : Int} :
    (c, r) ∈ b.window p ↔
      0 ≤ c ∧ c < b.width ∧ 0 ≤ r ∧ r < b.height ∧ InCanvas p (b.dstX + c) (b.dstY + r) := by
  rw [Sprite.mem_window]
  simp only [Sprite.cxmin, Sprite.cymin, Sprite.cxmax, Sprite.cymax, InCanvas]
  omega

/-- The writes of the sampler: one for each window pixel whose index is not transparent (R155). -/
theorem Sprite.mem_writes {p : Params} {dc : BitVec 16} {b : Sprite} {idx : Int → Int → Color} {tainted : Bool}
    {serial glyph : Nat} {w : PixelWrite} :
    w ∈ b.writes p dc idx tainted serial glyph ↔
      (w.x - b.dstX, w.y - b.dstY) ∈ b.window p ∧
      ∃ col, spriteColor dc (idx (w.x - b.dstX) (w.y - b.dstY)) = some col ∧
        w.c = if tainted then Config.freeColor ⟨serial, .sample glyph (w.x - b.dstX) (w.y - b.dstY)⟩ else col := by
  obtain ⟨d, u, v⟩ := w
  simp only [Sprite.writes, List.mem_filterMap, Option.map_eq_some_iff, Prod.exists, PixelWrite.mk.injEq]
  constructor
  · rintro ⟨c, r, hw, col, hcol, rfl, rfl, rfl⟩
    simp only [add_sub_cancel_left]
    exact ⟨hw, col, hcol, rfl⟩
  · rintro ⟨hw, col, hcol, rfl⟩
    exact ⟨_, _, hw, col, hcol, rfl, by omega, by omega⟩

theorem Sprite.writes_inCanvas {p : Params} {dc : BitVec 16} {b : Sprite} {idx : Int → Int → Color}
    {tainted : Bool} {serial glyph : Nat} :
    ∀ w ∈ b.writes p dc idx tainted serial glyph, InCanvas p w.x w.y := by
  intro w hw
  have h := (Sprite.mem_window_iff.1 (Sprite.mem_writes.1 hw).1).2.2.2.2
  simpa using h

theorem textWrites_inCanvas {s : State} : ∀ w ∈ textWrites s, InCanvas s.params w.x w.y := by
  intro w hw
  obtain ⟨_, _, h⟩ := List.mem_flatMap.1 hw
  exact Sprite.writes_inCanvas w h

end Sys2Proof.Machine
end

