-- ==== Sys2Proof/Laws/Ellipse.lean ====
section
/-! SUPPORT. What the two regions of OVAL's walk draw: exactly the stroke points of the side arc and of the top arc
(Safety.lean), each with the fill spans of its row. -/

namespace Sys2Proof.Machine

open Sys2Proof

/-! ## The ellipse's error -/

theorem ellipseErr_swap (a b X Y : Int) : ellipseErr b a Y X = ellipseErr a b X Y := by
  simp only [ellipseErr]; ring

theorem ellipseErr_succ_left (a b X Y : Int) : ellipseErr a b (X + 1) Y = ellipseErr a b X Y + b * b * (2 * X + 1) := by
  simp only [ellipseErr]; ring

theorem ellipseErr_succ_right (a b X Y : Int) :
    ellipseErr a b X (Y + 1) = ellipseErr a b X Y + a * a * (2 * Y + 1) := by
  simp only [ellipseErr]; ring

/-- The two arcs exchange with the axes. -/
theorem topArc_iff_sideArc {a b X Y : Int} : TopArc a b X Y ↔ SideArc b a Y X := by
  rw [TopArc, SideArc, ellipseErr_swap]

/-- Further right and further down the error is at least as large. -/
theorem ellipseErr_mono {a b X Y X' Y' : Int} (hX : 0 ≤ X) (hY : 0 ≤ Y) (h : X ≤ X') (h' : Y ≤ Y') :
    ellipseErr a b X Y ≤ ellipseErr a b X' Y' := by
  have h1 : X * X ≤ X' * X' := mul_le_mul h h hX (hX.trans h)
  have h2 : Y * Y ≤ Y' * Y' := mul_le_mul h' h' hY (hY.trans h')
  have h3 := mul_le_mul_of_nonneg_left h1 (mul_self_nonneg b)
  have h4 := mul_le_mul_of_nonneg_left h2 (mul_self_nonneg a)
  simp only [ellipseErr]
  linarith

/-- Where the error at `X` is above the lower bound of `SideArc`, no side arc point of this row or a further one
lies right of `X`. -/
theorem SideArc.le_of_lower {a b X Y X' Y' : Int} (hb : 0 < b) (hX : 0 ≤ X) (hY : 0 ≤ Y)
    (hl : -(b * b * (2 * X + 1)) < 2 * ellipseErr a b X Y) (hY' : Y ≤ Y') (h : SideArc a b X' Y') : X' ≤ X := by
  by_contra hlt
  obtain ⟨d, hd⟩ : ∃ d, X' = X + 1 + d := ⟨X' - (X + 1), by ring⟩
  have hd0 : 0 ≤ d := by omega
  have hm := ellipseErr_mono (a := a) (b := b) (X := X + 1) (X' := X + 1) (by omega) hY le_rfl hY'
  have hs := ellipseErr_succ_left a b X Y
  have hu := h.2.2
  have hbb : 0 < b * b := by positivity
  have he : ellipseErr a b X' Y' = ellipseErr a b (X + 1) Y' + b * b * (2 * (X + 1) * d + d * d) := by
    subst hd; simp only [ellipseErr]; ring
  have h1 : 0 ≤ b * b * (2 * (X + 1) * d + d * d - d) := by
    apply mul_nonneg hbb.le
    nlinarith [mul_nonneg hX hd0, mul_nonneg hd0 hd0]
  subst hd
  linarith

/-- A row has one side arc point. -/
theorem SideArc.unique {a b X X' Y : Int} (hb : 0 < b) (hY : 0 ≤ Y) (hX : 0 ≤ X) (hX' : 0 ≤ X')
    (h : SideArc a b X Y) (h' : SideArc a b X' Y) : X = X' :=
  le_antisymm (h.le_of_lower hb hX' hY h'.2.1 le_rfl) (h'.le_of_lower hb hX hY h.2.1 le_rfl)

theorem SideArc.nonneg {a b X Y : Int} (hb : 0 < b) (hY : 0 ≤ Y) (h : SideArc a b X Y) : 0 ≤ X := by
  have hbb : 0 < b * b := by positivity
  have : 0 ≤ b * b * X := (mul_nonneg (mul_self_nonneg a) hY).trans h.1
  exact nonneg_of_mul_nonneg_right this hbb

/-! ## Region 1 -/

/-- The variables of region 1 before a pass, at a walk that is still right of the arc or on it (R120, R124). -/
structure Arc.OnSide (o : Oval) (t : Arc) : Prop where
  X_nonneg : 0 ≤ t.X
  X_le : t.X ≤ o.a
  Y_nonneg : 0 ≤ t.Y
  dx : t.dx = o.b * o.b * (1 - 2 * t.X)
  dy : t.dy = o.a * o.a * (2 * t.Y + 1)
  sx : t.sx = 2 * (o.b * o.b * t.X)
  sy : t.sy = 2 * (o.a * o.a * t.Y)
  e : t.e = ellipseErr o.a o.b t.X t.Y
  lower : -(o.b * o.b * (2 * t.X + 1)) < 2 * t.e
  upper : t.sx ≥ t.sy → 2 * t.e ≤ o.b * o.b * (2 * t.X - 1)

theorem arc1Start_onSide {o : Oval} (ha : 0 < o.a) (hb : 0 < o.b) : (arc1Start o).OnSide o := by
  have hbb : 0 < o.b * o.b := by positivity
  have h := mul_le_mul_of_nonneg_left (show (1 : Int) ≤ o.a from ha) hbb.le
  constructor <;> simp only [arc1Start, ellipseErr]
  case lower => linarith
  case upper => intro _; linarith
  all_goals first | omega | ring

/-- A pass of region 1 in which the loop test holds is at a side arc point. -/
theorem Arc.OnSide.sideArc {o : Oval} {t : Arc} (h : t.OnSide o) (ht : t.sx ≥ t.sy) : SideArc o.a o.b t.X t.Y := by
  have hu := h.upper ht
  have hl := h.lower
  rw [h.e] at hu hl
  rw [h.sx, h.sy] at ht
  exact ⟨by linarith, hl, hu⟩

theorem Arc.OnSide.next {o : Oval} {t : Arc} (ha : 0 < o.a) (hb : 0 < o.b) (h : t.OnSide o) (ht : t.sx ≥ t.sy) :
    (arc1Next o t).OnSide o ∧ (arc1Next o t).Y = t.Y + 1 := by
  have haa : 0 < o.a * o.a := by positivity
  have hbb : 0 < o.b * o.b := by positivity
  have hu := h.upper ht
  have hl := h.lower
  have hX0 := h.X_nonneg
  have hXa := h.X_le
  have hY0 := h.Y_nonneg
  have hXpos : 1 ≤ t.X := pos_of_mul_pos_right (a := o.b * o.b) (by linarith) hbb.le
  have hdx := h.dx
  have hdy := h.dy
  have hsx := h.sx
  have hsy := h.sy
  have he : t.e + t.dy = ellipseErr o.a o.b t.X (t.Y + 1) := by rw [ellipseErr_succ_right, h.e, hdy]
  have hXY := ellipseErr_succ_left o.a o.b (t.X - 1) (t.Y + 1)
  rw [sub_add_cancel, ← he] at hXY
  have hY := mul_nonneg haa.le hY0
  unfold arc1Next
  dsimp only
  split_ifs with hs <;> refine ⟨?_, rfl⟩ <;> constructor <;> dsimp only
  all_goals first | omega | linarith | (intro _; linarith)

/-- What region 1 draws: at every side arc point its four strokes and its two fill spans, and nothing else
(R120, R124). -/
theorem mem_region1 {p : Params} {o : Oval} (ha : 0 < o.a) (hb : 0 < o.b) {w : PixelWrite} :
    w ∈ region1 p o (fuel1 o) (arc1Start o) ↔ ∃ X Y, 0 ≤ Y ∧ SideArc o.a o.b X Y ∧
      (w ∈ plot4 p o X Y ∨ w ∈ fill2 p o (o.x0 - X + 1) (o.x0 + X) Y) := by
  have key : ∀ (n : Nat) (t : Arc), t.OnSide o → o.b * o.b + 1 ≤ n + t.Y →
      (w ∈ region1 p o n t ↔ ∃ X Y, t.Y ≤ Y ∧ SideArc o.a o.b X Y ∧
        (w ∈ plot4 p o X Y ∨ w ∈ fill2 p o (o.x0 - X + 1) (o.x0 + X) Y)) := by
    intro n
    induction n with
    | zero =>
      intro t h hn
      simp only [region1, List.not_mem_nil, false_iff]
      rintro ⟨X, Y, hY, hs, _⟩
      have hX := (hs.le_of_lower hb h.X_nonneg h.Y_nonneg (h.e ▸ h.lower) hY).trans h.X_le
      have h1 := mul_le_mul_of_nonneg_left hX (mul_self_nonneg o.b)
      have h2 := mul_le_mul_of_nonneg_left (show o.b * o.b + 1 ≤ Y by push_cast at hn; omega) (mul_self_nonneg o.a)
      have h3 := mul_le_mul_of_nonneg_left (show (1 : Int) ≤ o.a from ha) (mul_nonneg (mul_self_nonneg o.b) ha.le)
      have h4 : 0 < o.a * o.a := by positivity
      linarith [hs.1]
    | succ n ih =>
      intro t h hn
      rw [region1]
      split_ifs with ht
      · obtain ⟨h', hY'⟩ := h.next ha hb ht
        have hs := h.sideArc ht
        rw [List.mem_append, List.mem_append, ih _ h' (by rw [hY']; push_cast at hn; linarith), hY']
        constructor
        · rintro (hw | ⟨X, Y, hY, hw⟩)
          · exact ⟨_, _, le_rfl, hs, hw⟩
          · exact ⟨X, Y, by omega, hw⟩
        · rintro ⟨X, Y, hY, hs', hw⟩
          rcases hY.eq_or_lt with rfl | hlt
          · obtain rfl := SideArc.unique hb h.Y_nonneg (hs'.nonneg hb h.Y_nonneg) h.X_nonneg hs' hs
            exact .inl hw
          · exact .inr ⟨X, Y, hlt, hs', hw⟩
      · simp only [List.not_mem_nil, false_iff]
        rintro ⟨X, Y, hY, hs, _⟩
        have hX := hs.le_of_lower hb h.X_nonneg h.Y_nonneg (h.e ▸ h.lower) hY
        have h1 := mul_le_mul_of_nonneg_left hX (mul_self_nonneg o.b)
        have h2 := mul_le_mul_of_nonneg_left hY (mul_self_nonneg o.a)
        rw [h.sx, h.sy] at ht
        linarith [hs.1]
  rw [key _ _ (arc1Start_onSide ha hb) ?_]
  · rfl
  · simp only [fuel1, arc1Start]; push_cast; rw [Int.toNat_of_nonneg (mul_self_nonneg _)]; omega

/-! ## Region 2: region 1 with the axes exchanged -/

/-- The ellipse with its axes exchanged. -/
def Oval.swap (o : Oval) : Oval := { o with a := o.b, b := o.a }

/-- The variables of the walk with the axes exchanged. -/
def Arc.swap (t : Arc) : Arc :=
  { t with X := t.Y, Y := t.X, dx := t.dy, dy := t.dx, sx := t.sy, sy := t.sx }

theorem arc2Start_swap (o : Oval) : (arc2Start o).swap = arc1Start o.swap := rfl

theorem arc2Next_swap (o : Oval) (t : Arc) :
    arc1Next o.swap t.swap = { (arc2Next o t).swap with ddx := t.ddx } := by
  by_cases h : 2 * (t.e + t.dx) + t.dy > 0 <;>
    simp [arc1Next, arc2Next, arc2Step, Arc.LeavesRow, Oval.swap, Arc.swap, h]

theorem Arc.OnSide.of_ddx {o : Oval} {t : Arc} {n : Int} (h : Arc.OnSide o { t with ddx := n }) : t.OnSide o :=
  ⟨h.1, h.2, h.3, h.4, h.5, h.6, h.7, h.8, h.9, h.10⟩

/-- `F` is the top arc's first column on row `Y`. -/
def TopFirst (a b F Y : Int) : Prop :=
  0 ≤ F ∧ TopArc a b F Y ∧ ∀ X, 0 ≤ X → TopArc a b X Y → F ≤ X

/-- The variables of region 2 before a pass: those of region 1 with the axes exchanged, and `ddx` counts back to
the first column of the row (R125). -/
structure Arc.OnTop (o : Oval) (t : Arc) : Prop where
  side : t.swap.OnSide o.swap
  ddx_nonneg : 0 ≤ t.ddx
  ddx_le : t.ddx ≤ t.X
  first : 0 < t.ddx → TopArc o.a o.b (t.X - t.ddx) t.Y
  before : ∀ X, 0 ≤ X → TopArc o.a o.b X t.Y → t.X - t.ddx ≤ X

theorem arc2Start_onTop {o : Oval} (ha : 0 < o.a) (hb : 0 < o.b) : (arc2Start o).OnTop o := by
  refine ⟨?_, le_rfl, le_rfl, fun h => absurd h (lt_irrefl _), fun X h _ => ?_⟩
  · rw [arc2Start_swap]
    exact arc1Start_onSide hb ha
  · simpa [arc2Start] using h

/-- A pass of region 2 in which the loop test holds is at a top arc point. -/
theorem Arc.OnTop.topArc {o : Oval} {t : Arc} (h : t.OnTop o) (ht : t.sy ≥ t.sx) : TopArc o.a o.b t.X t.Y :=
  topArc_iff_sideArc.2 (h.side.sideArc ht)

theorem Arc.OnTop.topFirst {o : Oval} {t : Arc} (h : t.OnTop o) (ht : t.sy ≥ t.sx) :
    TopFirst o.a o.b (t.X - t.ddx) t.Y := by
  refine ⟨by have := h.ddx_le; omega, ?_, h.before⟩
  rcases h.ddx_nonneg.eq_or_lt with h0 | h0
  · rw [← h0, sub_zero]; exact h.topArc ht
  · exact h.first h0

theorem Arc.OnTop.next {o : Oval} {t : Arc} (ha : 0 < o.a) (hb : 0 < o.b) (h : t.OnTop o) (ht : t.sy ≥ t.sx) :
    (arc2Next o t).OnTop o ∧ (arc2Next o t).X = t.X + 1 := by
  have hn := h.side.next hb ha ht
  rw [arc2Next_swap] at hn
  refine ⟨?_, hn.2⟩
  have hs := hn.1.of_ddx
  have hF := h.topFirst ht
  have hd := h.ddx_nonneg
  have hdX := h.ddx_le
  revert hs
  unfold arc2Next arc2Step
  dsimp only
  split_ifs <;> intro hs
  · refine ⟨hs, le_rfl, by dsimp only; omega, fun h0 => absurd h0 (lt_irrefl _), fun X hX hXY => ?_⟩
    dsimp only at hXY ⊢
    by_contra hlt
    have hT := h.topArc ht
    rw [topArc_iff_sideArc] at hXY hT
    have := hT.le_of_lower ha (hXY.nonneg ha hX) hX hXY.2.1 (by omega)
    omega
  · have hF' : t.X + 1 - (t.ddx + 1) = t.X - t.ddx := by ring
    refine ⟨hs, ?_, ?_, fun _ => ?_, fun X hX hXY => ?_⟩ <;> dsimp only at *
    · omega
    · omega
    · rw [hF']; exact hF.2.1
    · rw [hF']; exact hF.2.2 X hX hXY

/-- The fill spans of a pass in which the loop test holds. -/
theorem Arc.OnTop.mem_fillLeft {p : Params} {o : Oval} {t : Arc} (h : t.OnTop o) {w : PixelWrite} :
    w ∈ fillLeft p o t ↔ o.a * o.a * (2 * t.Y - 1) < 2 * ellipseErr o.a o.b (t.X + 1) t.Y ∧
      w ∈ fill2 p o (o.x0 - (t.X - t.ddx) + 1) (o.x0 + (t.X - t.ddx)) t.Y := by
  have he := h.side.e
  have hdx := h.side.dy
  have hdy := h.side.dx
  simp only [Oval.swap, Arc.swap, ellipseErr_swap] at he hdx hdy
  have hiff : (arc2Step o t).LeavesRow ↔
      o.a * o.a * (2 * t.Y - 1) < 2 * ellipseErr o.a o.b (t.X + 1) t.Y := by
    rw [ellipseErr_succ_left, ← he]
    simp only [Arc.LeavesRow, arc2Step]
    constructor <;> intro _ <;> linarith
  simp only [fillLeft]
  rw [← hiff]
  have h1 : o.x0 - ((arc2Step o t).X - (arc2Step o t).ddx - 1) = o.x0 - (t.X - t.ddx) + 1 := by
    simp only [arc2Step]; ring
  have h2 : o.x0 + ((arc2Step o t).X - (arc2Step o t).ddx - 1) + 1 = o.x0 + (t.X - t.ddx) := by
    simp only [arc2Step]; ring
  rw [h1, h2]
  split_ifs with hl
  · exact (and_iff_right hl).symm
  · simp [hl]

/-- What region 2 draws: at every top arc point its four strokes, and where the walk leaves a row the two fill spans
left of the row's first top arc point, and nothing else (R120, R125). -/
theorem mem_region2 {p : Params} {o : Oval} (ha : 0 < o.a) (hb : 0 < o.b) {w : PixelWrite} :
    w ∈ region2 p o (fuel2 o) (arc2Start o) ↔ ∃ X Y, 0 ≤ X ∧ TopArc o.a o.b X Y ∧
      (w ∈ plot4 p o X Y ∨ o.a * o.a * (2 * Y - 1) < 2 * ellipseErr o.a o.b (X + 1) Y ∧
        ∃ F, TopFirst o.a o.b F Y ∧ w ∈ fill2 p o (o.x0 - F + 1) (o.x0 + F) Y) := by
  have key : ∀ (n : Nat) (t : Arc), t.OnTop o → o.a * o.a + 1 ≤ n + t.X →
      (w ∈ region2 p o n t ↔ ∃ X Y, t.X ≤ X ∧ TopArc o.a o.b X Y ∧
        (w ∈ plot4 p o X Y ∨ o.a * o.a * (2 * Y - 1) < 2 * ellipseErr o.a o.b (X + 1) Y ∧
          ∃ F, TopFirst o.a o.b F Y ∧ w ∈ fill2 p o (o.x0 - F + 1) (o.x0 + F) Y)) := by
    intro n
    induction n with
    | zero =>
      intro t h hn
      simp only [region2, List.not_mem_nil, false_iff]
      rintro ⟨X, Y, hX, hs, _⟩
      rw [topArc_iff_sideArc] at hs
      have hs' := h.side
      have hY := (hs.le_of_lower ha hs'.X_nonneg hs'.Y_nonneg (hs'.e ▸ hs'.lower) hX).trans hs'.X_le
      have h1 := mul_le_mul_of_nonneg_left hY (mul_self_nonneg o.a)
      have h2 := mul_le_mul_of_nonneg_left (show o.a * o.a + 1 ≤ X by push_cast at hn; omega) (mul_self_nonneg o.b)
      have h3 := mul_le_mul_of_nonneg_left (show (1 : Int) ≤ o.b from hb) (mul_nonneg (mul_self_nonneg o.a) hb.le)
      have h4 : 0 < o.b * o.b := by positivity
      simp only [Oval.swap] at h1
      linarith [hs.1]
    | succ n ih =>
      intro t h hn
      rw [region2]
      split_ifs with ht
      · obtain ⟨h', hX'⟩ := h.next ha hb ht
        have hs := h.topArc ht
        have hF := h.topFirst ht
        rw [List.mem_append, List.mem_append, h.mem_fillLeft, ih _ h' (by rw [hX']; push_cast at hn; linarith), hX']
        constructor
        · rintro ((hw | ⟨hl, hw⟩) | ⟨X, Y, hX, hw⟩)
          · exact ⟨_, _, le_rfl, hs, .inl hw⟩
          · exact ⟨_, _, le_rfl, hs, .inr ⟨hl, _, hF, hw⟩⟩
          · exact ⟨X, Y, by omega, hw⟩
        · rintro ⟨X, Y, hX, hs', hw⟩
          rcases hX.eq_or_lt with rfl | hlt
          · have hXn : 0 ≤ t.X := h.side.Y_nonneg
            have hY : Y = t.Y := by
              rw [topArc_iff_sideArc] at hs hs'
              exact hs'.unique ha hXn (hs'.nonneg ha hXn) (hs.nonneg ha hXn) hs
            subst hY
            rcases hw with hw | ⟨hl, F, hF', hw⟩
            · exact .inl (.inl hw)
            · have : F = t.X - t.ddx := le_antisymm (hF'.2.2 _ hF.1 hF.2.1) (hF.2.2 _ hF'.1 hF'.2.1)
              exact .inl (.inr ⟨hl, this ▸ hw⟩)
          · exact .inr ⟨X, Y, hlt, hs', hw⟩
      · simp only [List.not_mem_nil, false_iff]
        rintro ⟨X, Y, hX, hs, _⟩
        rw [topArc_iff_sideArc] at hs
        have hs' := h.side
        have hY := hs.le_of_lower ha hs'.X_nonneg hs'.Y_nonneg (hs'.e ▸ hs'.lower) hX
        have h1 := mul_le_mul_of_nonneg_left hY (mul_self_nonneg o.a)
        have h2 := mul_le_mul_of_nonneg_left hX (mul_self_nonneg o.b)
        have h3 := hs'.sx
        have h4 := hs'.sy
        simp only [Oval.swap, Arc.swap] at h1 h3 h4
        rw [h3, h4] at ht
        linarith [hs.1]
  rw [key _ _ (arc2Start_onTop ha hb) ?_]
  · rfl
  · simp only [fuel2, arc2Start]; push_cast; rw [Int.toNat_of_nonneg (mul_self_nonneg _)]; omega

end Sys2Proof.Machine
end

