-- ==== Sys2Proof/Laws/Exec.lean ====
section
/-! SUPPORT. What a command and a step can do, said once. -/

namespace Sys2Proof.Machine

open Sys2Proof

/-! ## Painting -/

/-- A sequence of `PutPixel` calls on the canvas paints each pixel with the color of the last call for it. -/
theorem paint_paints {s : State} (hs : s.Ready) {ws : List PixelWrite} (hc : ∀ w ∈ ws, InCanvas s.params w.x w.y) :
    Paints s (s.paint ws) (lastColor ws) := by
  refine ⟨rfl, fun x y hxy => pix_putPixels hs.1.2.1 hs.2 hc hxy, fun a ha => ?_⟩
  refine read_putPixels_other hs.2 fun w hw => ha _ _ (hc w hw) fun h => ?_
  exact lastColor_eq_none.1 h w hw ⟨rfl, rfl⟩

/-- Only the colors of canvas pixels matter to `Paints`. -/
theorem Paints.congr {s t : State} {f g : Int → Int → Option Color} (h : Paints s t f)
    (hfg : ∀ x y, InCanvas s.params x y → f x y = g x y) : Paints s t g := by
  refine ⟨h.1, fun x y hxy => ?_, fun a ha => h.2.2 a fun x y hxy hf => ha x y hxy (hfg x y hxy ▸ hf)⟩
  rw [h.2.1 x y hxy, hfg x y hxy]

/-- When all the writes to a pixel have one color, the sequence paints a pixel exactly if it holds a write to
it. -/
theorem paint_paints_of_mem {s : State} (hs : s.Ready) {ws : List PixelWrite} {f : Int → Int → Option Color}
    (hc : ∀ w ∈ ws, InCanvas s.params w.x w.y)
    (hf : ∀ x y c, InCanvas s.params x y → (⟨c, x, y⟩ ∈ ws ↔ f x y = some c)) : Paints s (s.paint ws) f := by
  refine (paint_paints hs hc).congr fun x y hxy => ?_
  cases h : f x y with
  | none =>
    refine lastColor_eq_none.2 ?_
    rintro ⟨c, _, _⟩ hw ⟨rfl, rfl⟩
    have := (hf x y c hxy).1 hw
    simp [h] at this
  | some c =>
    refine lastColor_eq_some ⟨c, (hf x y c hxy).2 h⟩ fun d hd => ?_
    have := (hf x y d hxy).1 hd
    rw [h, Option.some.injEq] at this
    exact this.symm

/-! ## A command -/

/-- How a command can end: an exception of WRITE_U or FILL_ROW, CLEAR's byte fill, the writes of a Pixel Store
command, or the latch and the writes of a draw command; every write is on the canvas. -/
theorem exec_cases (i : Instr) (s : State) :
    (exec i s = .next (s.raise .precond) ∧ ∃ c, i = .writeU c ∨ i = .fillRow c) ∨
    (i = .clear ∧ exec i s = .next (s.setMem (fillBytes 0 s.params.fbBytes s.params.fbBase s.mem))) ∨
    (∃ ws, exec i s = .next (s.paint ws) ∧ (∀ w ∈ ws, InCanvas s.params w.x w.y) ∧
      ∃ c, i = .writeU c ∨ i = .writeC c ∨ i = .fillRow c) ∨
    (∃ ws, exec i s = .next (s.latch.paint ws) ∧ (∀ w ∈ ws, InCanvas s.params w.x w.y) ∧
      i ≠ .clear ∧ ∀ c, i ≠ .writeU c ∧ i ≠ .writeC c ∧ i ≠ .fillRow c) := by
  cases i with
  | clear => exact .inr (.inl ⟨rfl, rfl⟩)
  | writeU c =>
    by_cases h : InCanvas s.params (sArg s 0) (sArg s 1)
    · refine .inr (.inr (.inl ⟨_, if_pos h, ?_, c, .inl rfl⟩))
      simpa using h
    · exact .inl ⟨if_neg h, c, .inl rfl⟩
  | writeC c =>
    refine .inr (.inr (.inl ⟨_, rfl, ?_, c, .inr (.inl rfl)⟩))
    intro w hw
    obtain ⟨h, rfl⟩ := mem_pixelClipped.1 hw
    exact h
  | fillRow c =>
    by_cases h : SpanInCanvas s.params (sArg s 0) (sArg s 1) (sArg s 2)
    · refine .inr (.inr (.inl ⟨_, if_pos h, ?_, c, .inr (.inr rfl)⟩))
      intro w hw
      obtain ⟨h1, h2, h3, _⟩ := mem_span.1 hw
      refine ⟨?_, ?_, ?_, ?_⟩ <;> omega
    · exact .inl ⟨if_neg h, c, .inr rfl⟩
  | hline => exact .inr (.inr (.inr ⟨_, rfl, fun w hw => (mem_hlineWrites.1 hw).1, by simp, by simp⟩))
  | vline => exact .inr (.inr (.inr ⟨_, rfl, fun w hw => (mem_vlineWrites.1 hw).1, by simp, by simp⟩))
  | rect => exact .inr (.inr (.inr ⟨_, rfl, rectWrites_inCanvas, by simp, by simp⟩))
  | oval => exact .inr (.inr (.inr ⟨_, rfl, ovalWrites_inCanvas, by simp, by simp⟩))
  | line => exact .inr (.inr (.inr ⟨_, rfl, fun w hw => (mem_lineWrites.1 hw).1, by simp, by simp⟩))
  | text => exact .inr (.inr (.inr ⟨_, rfl, textWrites_inCanvas (s := s.latch), by simp, by simp⟩))
  | blit bpp2 flipX flipY rotate =>
    exact .inr (.inr (.inr ⟨_, rfl, Sprite.writes_inCanvas (p := s.params), by simp, by simp⟩))

/-! ## A step -/

/-- How a step can go on: the idle block waits, or the host's next action is carried out. -/
theorem step_cases {s t : State} (h : step s = .next t) :
    s.params.WF ∧ ((s.pending = [] ∧ t = s) ∨ ∃ a rest, s.pending = a :: rest ∧ act a (s.setPending rest) = .next t) := by
  unfold step hostStep at h
  by_cases hwf : s.params.WF
  · rw [if_pos hwf] at h
    refine ⟨hwf, ?_⟩
    cases hp : s.pending with
    | nil => simp only [hp, Host.Outcome.next.injEq] at h; exact .inl ⟨rfl, h.symm⟩
    | cons a rest => simp only [hp] at h; exact .inr ⟨a, rest, rfl, h⟩
  · rw [if_neg hwf] at h
    simp at h

/-- How a host action can go on: a command issued, an illegal word, a register written, read or left alone, a
byte of host memory written or read, a reset. -/
theorem act_cases {h : HostAction} {s t : State} (e : act h s = .next t) :
    (∃ w i, decode w = .ok i ∧ exec i (s.setCmd w) = .next t) ∨
    (∃ w x, decode w = .error x ∧ t = (s.setCmd w).raise .illegal) ∨
    (∃ i w, t = s.setArgs (s.args.set i w)) ∨ t = s ∨ (∃ w, t = s.setHostData w) ∨
    (∃ a v, a < s.params.hostMemSize ∧ ¬ s.params.InFramebuffer a ∧ t = s.setMem (s.mem.write a v)) ∨
    (h = .reset ∧ t = resetBlock s) := by
  cases h with
  | portWrite addr bytes w =>
    simp only [act] at e
    split at e
    · next r _ =>
      cases r with
      | cmd =>
        simp only [writePort, issue] at e
        split at e
        · next i hi => exact .inl ⟨w, i, hi, e⟩
        · next x hx => exact .inr (.inl ⟨w, x, hx, by simpa using e.symm⟩)
      | status => exact .inr (.inr (.inr (.inl (by simpa [writePort] using e.symm))))
      | arg i => exact .inr (.inr (.inl ⟨i, w, by simpa [writePort] using e.symm⟩))
      | reserved => exact .inr (.inr (.inr (.inl (by simpa [writePort] using e.symm))))
    · simp at e
  | portRead addr bytes =>
    simp only [act] at e
    split at e
    · exact .inr (.inr (.inr (.inr (.inl ⟨_, by simpa using e.symm⟩))))
    · simp at e
  | memWrite a v =>
    simp only [act, hostWrite] at e
    split_ifs at e with h1 h2
    · exact .inr (.inr (.inr (.inr (.inr (.inl ⟨a, v, by omega, h2, by simpa using e.symm⟩)))))
  | memRead a =>
    simp only [act, hostRead] at e
    split_ifs at e with h1
    · exact .inr (.inr (.inr (.inr (.inl ⟨_, by simpa using e.symm⟩))))
  | reset => exact .inr (.inr (.inr (.inr (.inr (.inr ⟨rfl, by simpa [act] using e.symm⟩)))))

end Sys2Proof.Machine
end

