-- ==== Sys2Proof/Laws/PerInstr.lean ====
section
/-! SUPPORT. Statements about every instruction as syntax, one lemma a constructor. -/

namespace Sys2Proof.Laws

open Sys2Proof

/-- The mask of the instruction's row of spec/opcode_table.json (R69). -/
def rowMask : Instr → Word
  | .clear => 0xFFFFFFFF
  | .writeU _ => 0xFFFFFCFF
  | .writeC _ => 0xFFFFFCFF
  | .fillRow _ => 0xFFFFFCFF
  | .hline => 0xFFFFFFFF
  | .vline => 0xFFFFFFFF
  | .rect => 0xFFFFFFFF
  | .oval => 0xFFFFFFFF
  | .line => 0xFFFFFFFF
  | .text => 0xFFFFFFFF
  | .blit _ _ _ _ => 0xFFFFFF0F

/-- The match of the instruction's row of spec/opcode_table.json (R69). -/
def rowMatch : Instr → Word
  | .clear => 0x00000001
  | .writeU _ => 0x00000002
  | .writeC _ => 0x00000003
  | .fillRow _ => 0x00000004
  | .hline => 0x00000005
  | .vline => 0x00000006
  | .rect => 0x00000007
  | .oval => 0x00000008
  | .line => 0x00000009
  | .text => 0x0000000A
  | .blit _ _ _ _ => 0x0000000B

/-- The encoded word matches the instruction's row of the opcode table. -/
def MatchesRow.Statement (i : Instr) : Prop := encode i &&& rowMask i = rowMatch i

theorem MatchesRow.clear : MatchesRow.Statement .clear := by unfold MatchesRow.Statement; decide
theorem MatchesRow.writeU (c : Color) : MatchesRow.Statement (.writeU c) := by
  unfold MatchesRow.Statement; revert c; decide
theorem MatchesRow.writeC (c : Color) : MatchesRow.Statement (.writeC c) := by
  unfold MatchesRow.Statement; revert c; decide
theorem MatchesRow.fillRow (c : Color) : MatchesRow.Statement (.fillRow c) := by
  unfold MatchesRow.Statement; revert c; decide
theorem MatchesRow.hline : MatchesRow.Statement .hline := by unfold MatchesRow.Statement; decide
theorem MatchesRow.vline : MatchesRow.Statement .vline := by unfold MatchesRow.Statement; decide
theorem MatchesRow.rect : MatchesRow.Statement .rect := by unfold MatchesRow.Statement; decide
theorem MatchesRow.oval : MatchesRow.Statement .oval := by unfold MatchesRow.Statement; decide
theorem MatchesRow.line : MatchesRow.Statement .line := by unfold MatchesRow.Statement; decide
theorem MatchesRow.text : MatchesRow.Statement .text := by unfold MatchesRow.Statement; decide
theorem MatchesRow.blit (bpp2 flipX flipY rotate : Bool) :
    MatchesRow.Statement (.blit bpp2 flipX flipY rotate) := by
  unfold MatchesRow.Statement; revert bpp2 flipX flipY rotate; decide

end Sys2Proof.Laws
end

