-- ==== Sys2Proof/Tests/Slice0.lean ====
section
/-! SUPPORT. Small tests. Words are written out from the table of spec/30_encoding.md rule R69; expected pixels come
from the vectors of spec/95_test_vectors.md, named in each comment. The witnesses show states that meet the
hypotheses of the statements of Certificates/Slice0/Obligations.lean. -/

namespace Sys2Proof.Tests

open Sys2Proof Sys2Proof.Machine

/-! ## Helpers -/

/-- The default setup of spec/95_test_vectors.md. -/
def p8 : Params := ⟨8, 8, 256, 0x40, 0x04, 0x80, 0, 0, true, .declared, .dest⟩

/-- The text setup of spec/95_test_vectors.md, with the port elsewhere. -/
def p16 : Params := ⟨16, 16, 1024, 0x200, 0x04, 0x80, 3, 0x1000, true, .declared, .dest⟩

/-- A cleared canvas with draw colors `dc`, the bytes `more` and the operands `ops`. -/
def start (p : Params) (dc : Nat) (more : List (Nat × Byte)) (ops : List Int) : State :=
  let m := [(p.dcAddr, BitVec.ofNat 8 dc), (p.dcAddr + 1, BitVec.ofNat 8 (dc / 256))] ++ more
  (State.resetWith p (m.foldl (fun m c => m.write c.1 c.2) [])).setArgs (loadArgs Args.zero 0 ops)

/-- The next state, if there is one. -/
def nextOf : Out → Option State
  | .next t => some t
  | .fault _ => none
  | .refused _ => none

/-- Row `y` of the canvas after an outcome. -/
def rowOf (o : Out) (y : Int) : Option (List Nat) :=
  (nextOf o).map fun t => (intRange 0 t.params.width).map fun x => (t.pixAt x y).toNat

/-- `STATUS` after an outcome. -/
def statusOf (o : Out) : Option Word := (nextOf o).map fun t => t.status

/-- What a word decodes to, if it decodes. -/
def decoded (w : Word) : Option Instr := (decode w).toOption

/-- Why a word is rejected. -/
def rejected (w : Word) : Option DecodeError :=
  match decode w with
  | .ok _ => none
  | .error e => some e

/-! ## Decoding: every constructor by its written-out word (R69) -/

theorem test_decode_clear : decoded 0b00000000000000000000000000000001#32 = some .clear := by decide
theorem test_decode_writeU : decoded 0b00000000000000000000001000000010#32 = some (.writeU 2) := by decide
theorem test_decode_writeC : decoded 0b00000000000000000000001100000011#32 = some (.writeC 3) := by decide
theorem test_decode_fillRow : decoded 0b00000000000000000000000100000100#32 = some (.fillRow 1) := by decide
theorem test_decode_hline : decoded 0b00000000000000000000000000000101#32 = some .hline := by decide
theorem test_decode_vline : decoded 0b00000000000000000000000000000110#32 = some .vline := by decide
theorem test_decode_rect : decoded 0b00000000000000000000000000000111#32 = some .rect := by decide
theorem test_decode_oval : decoded 0b00000000000000000000000000001000#32 = some .oval := by decide
theorem test_decode_line : decoded 0b00000000000000000000000000001001#32 = some .line := by decide
theorem test_decode_text : decoded 0b00000000000000000000000000001010#32 = some .text := by decide
theorem test_decode_blit : decoded 0b00000000000000000000000000011011#32 = some (.blit true false false false) := by
  decide
theorem test_decode_blit_flags :
    decoded 0b00000000000000000000000000101011#32 = some (.blit false true false false) ∧
    decoded 0b00000000000000000000000001001011#32 = some (.blit false false true false) ∧
    decoded 0b00000000000000000000000010001011#32 = some (.blit false false false true) := by decide

/-- The illegal words of IL1 to IL9, each with the clause of R66 it breaks. -/
theorem test_illegal_words :
    rejected 0x00000000 = some .reservedOpcode ∧ rejected 0x0000000C = some .reservedOpcode ∧
    rejected 0x0000000F = some .reservedOpcode ∧ rejected 0x00000401 = some .reservedBits ∧
    rejected 0x80000001 = some .reservedBits ∧ rejected 0x00000015 = some .flagsUnused ∧
    rejected 0x00000105 = some .colorUnused ∧ rejected 0x0000010B = some .colorUnused ∧
    rejected 0x00000011 = some .flagsUnused := by decide

theorem test_table_words :
    decodeTableWord 32 0x304 = some (.fillRow 3) ∧ decodeTableWord 32 0xFB = some (.blit true true true true) ∧
    decodeTableWord 32 0x10 = none := by decide

/-! ## Well-formedness: an ill-formed term for each check -/

theorem test_params_wf : p8.WF ∧ p16.WF ∧ Params.default.WF := by decide
theorem test_params_width_small : ¬ (Params.WF { p8 with width := 0 }) := by decide
theorem test_params_width_mod : ¬ (Params.WF { p8 with width := 6 }) := by decide
theorem test_params_height : ¬ (Params.WF { p8 with height := 0 }) := by decide
theorem test_params_no_memory :
    ¬ (Params.WF { p8 with hostMemSize := 0 }) := by decide
theorem test_params_framebuffer : ¬ (Params.WF { p8 with fbBase := 241 }) := by decide
theorem test_params_draw_colors : ¬ (Params.WF { p8 with dcAddr := 255 }) := by decide
theorem test_params_draw_colors_low : ¬ (Params.WF { p8 with dcAddr := 0x4F }) := by decide
theorem test_params_draw_colors_high : ¬ (Params.WF { p8 with dcAddr := 0x3F }) := by decide
theorem test_params_font : ¬ (Params.WF { p8 with fontGlyphs := 17 }) := by decide
theorem test_instr_wf : (Instr.blit true true true true).wf = true ∧ (Instr.writeU 3).wf = true := by decide
theorem test_stmt_wf :
    (Stmt.command .hline [-2, 3]).wf = false ∧ (Stmt.command .hline [-2, 3, 4294967296]).wf = false ∧
    (Stmt.command .hline [-2147483649, 3, 4]).wf = false ∧ (Stmt.setDc 0x10000).wf = false ∧
    (Stmt.bytes 0 [256]).wf = false ∧ (Stmt.command .hline [-2, 3, 5]).wf = true := by decide
theorem test_memory_wf :
    Memory.wf [(3, 1), (3, 2)] = false ∧ Memory.wf [(4, 1), (3, 2)] = false ∧ Memory.wf [(3, 0)] = false ∧
    Memory.wf [(3, 1), (4, 2)] = true := by decide

/-! ## The commands -/

/-- R84's example in the default setup: every byte 0 afterwards. -/
theorem test_clear : (nextOf (exec .clear (start p8 0 [(0x40, 0x55), (0x4F, 0x41)] []))).map (·.mem) = some [] := by
  decide

/-- PS2: byte 3 is 0x08. -/
theorem test_writeU : (nextOf (exec (.writeU 2) (start p8 0 [] [5, 1]))).map (·.mem) = some [(0x43, 0x08)] := by
  decide

/-- PS5: PRECOND, no write. -/
theorem test_writeU_outside :
    exec (.writeU 1) (start p8 0 [] [8, 0]) = .next { start p8 0 [] [8, 0] with status := 2 } := rfl

/-- PS8: byte 0 is 0x03. -/
theorem test_writeC : (nextOf (exec (.writeC 3) (start p8 0 [] [0, 0]))).map (·.mem) = some [(0x40, 0x03)] := by decide

/-- PS9: outside the canvas nothing happens. -/
theorem test_writeC_outside : nextOf (exec (.writeC 3) (start p8 0 [] [-1, 0])) = some (start p8 0 [] [-1, 0]) := by
  decide

/-- FR2. -/
theorem test_fillRow : rowOf (exec (.fillRow 3) (start p8 0 [] [1, 2, 7])) 2 = some [0, 3, 3, 3, 3, 3, 3, 0] := by
  decide

/-- FR9: `y = HEIGHT` breaks the precondition. -/
theorem test_fillRow_breach : statusOf (exec (.fillRow 1) (start p8 0 [] [0, 8, 2])) = some 2 := by decide

/-- HV1. -/
theorem test_hline : rowOf (exec .hline (start p8 0x0004 [] [-2, 3, 5])) 3 = some [3, 3, 3, 0, 0, 0, 0, 0] := by
  decide

/-- HV6: exact arithmetic, the line ends left of the canvas. -/
theorem test_hline_exact :
    rowOf (exec .hline (start p8 0x0003 [] [-2147483648, 0, 2147483647])) 0 = some [0, 0, 0, 0, 0, 0, 0, 0] := by
  decide

/-- HV7. -/
theorem test_vline :
    rowOf (exec .vline (start p8 0x0002 [] [7, 6, 5])) 6 = some [0, 0, 0, 0, 0, 0, 0, 1] ∧
    rowOf (exec .vline (start p8 0x0002 [] [7, 6, 5])) 5 = some [0, 0, 0, 0, 0, 0, 0, 0] := by decide

/-- RC7: the left and top edges lie off the canvas and are not drawn. -/
theorem test_rect_crossing :
    rowOf (exec .rect (start p8 0x0034 [] [-2, -1, 5, 4])) 1 = some [3, 3, 2, 0, 0, 0, 0, 0] ∧
    rowOf (exec .rect (start p8 0x0034 [] [-2, -1, 5, 4])) 2 = some [2, 2, 2, 0, 0, 0, 0, 0] := by decide

/-- RC4: width 1. -/
theorem test_rect_thin :
    rowOf (exec .rect (start p8 0x0034 [] [2, 2, 1, 4])) 5 = some [0, 0, 2, 0, 0, 0, 0, 0] ∧
    rowOf (exec .rect (start p8 0x0034 [] [2, 2, 1, 4])) 6 = some [0, 0, 0, 0, 0, 0, 0, 0] := by decide

/-- OV1 and OV9, rows 1 and 2. -/
theorem test_oval :
    rowOf (exec .oval (start p8 0x0023 [] [1, 1, 4, 4])) 1 = some [0, 0, 1, 1, 1, 0, 0, 0] ∧
    rowOf (exec .oval (start p8 0x0023 [] [1, 1, 4, 4])) 2 = some [0, 1, 2, 2, 2, 1, 0, 0] ∧
    rowOf (exec .oval (start p8 0x0003 [] [1, 1, 4, 4])) 2 = some [0, 3, 2, 2, 2, 3, 0, 0] := by decide

/-- OV10 and OV14: the sentinel under both settings. -/
theorem test_oval_sentinel :
    rowOf (exec .oval (start p8 0x00F3 [] [1, 1, 4, 4])) 2 = some [0, 0, 0, 0, 0, 0, 0, 0] ∧
    rowOf (exec .oval (start { p8 with ellipseFSentinel := false } 0x00F3 [] [1, 1, 4, 4])) 1 =
      some [0, 0, 2, 2, 2, 0, 0, 0] := by decide

/-- LN13, whose first row tells truncation from floor. -/
theorem test_line :
    rowOf (exec .line (start p8 0x0002 [] [0, 1, 5, 0])) 0 = some [0, 0, 0, 1, 1, 1, 0, 0] ∧
    rowOf (exec .line (start p8 0x0002 [] [0, 1, 5, 0])) 1 = some [1, 1, 1, 0, 0, 0, 0, 0] := by decide

/-- LN7: x decreasing. -/
theorem test_line_left : rowOf (exec .line (start p8 0x0002 [] [7, 2, 0, 5])) 3 = some [0, 0, 0, 0, 1, 1, 0, 0] := by
  decide

/-- The text of TX3: glyph 2, newline, glyph 1; only glyph 2's bytes and the rows 1 and 2 are looked at. -/
def textState : State :=
  start p16 0x0040
    [(0x90, 0x80), (0x91, 0x40), (0x92, 0x20), (0x93, 0x10), (0x88, 0xFF), (0x89, 0x81),
     (0x100, 0x22), (0x101, 0x0A), (0x102, 0x21)] [0x100, 3, 2, 1]

/-- TX3, rows 2 and 9. -/
theorem test_text :
    rowOf (exec .text textState) 2 = some [0, 0, 0, 3, 0, 0, 0, 0, 0, 0, 0, 0, 0, 0, 0, 0] ∧
    rowOf (exec .text textState) 9 = some [0, 0, 3, 3, 3, 3, 3, 3, 3, 3, 0, 0, 0, 0, 0, 0] := by decide

/-- TX6: `len = 0` draws nothing. -/
theorem test_text_empty : nextOf (exec .text (textState.setArgs (textState.args.set 1 0))) =
    some (textState.setArgs (textState.args.set 1 0)).latch := by decide

/-- The sprite of the BL vectors. -/
def spriteBytes : List (Nat × Byte) := [(0x20, 0x1B), (0x21, 0xE4), (0x22, 0x55), (0x23, 0xAA)]

/-- BL5: ROTATE, rows 0 and 3. -/
theorem test_blit_rotate :
    rowOf (exec (.blit true false false true) (start p8 0x4321 spriteBytes [0x20, 0, 0, 4, 4, 0, 0, 4])) 0 =
      some [3, 0, 1, 2, 0, 0, 0, 0] ∧
    rowOf (exec (.blit true false false true) (start p8 0x4321 spriteBytes [0x20, 0, 0, 4, 4, 0, 0, 4])) 3 =
      some [0, 3, 1, 2, 0, 0, 0, 0] := by decide

/-- BL12 and BL13: a clipped flip under both settings of `FLIP_BASIS`. -/
theorem test_blit_flip_basis :
    rowOf (exec (.blit true true false false) (start p8 0x4321 spriteBytes [0x20, -2, 0, 4, 4, 0, 0, 4])) 0 =
      some [1, 0, 0, 0, 0, 0, 0, 0] ∧
    rowOf (exec (.blit true true false false)
      (start { p8 with flipBasis := .clipped } 0x4321 spriteBytes [0x20, -2, 0, 4, 4, 0, 0, 4])) 0 =
      some [3, 2, 0, 0, 0, 0, 0, 0] := by decide

/-- BL20: a negative bit index selects the byte before the sprite. -/
theorem test_blit_negative_index :
    rowOf (exec (.blit true false false false) (start p8 0x4321 [(0x1F, 0x03)] [0x20, 0, 0, 1, 1, -1, 0, 4])) 0 =
      some [3, 0, 0, 0, 0, 0, 0, 0] := by decide

/-! ## The step, the port, the assembler -/

/-- P3: the illegal word `0x15` sets ILLEGAL, `WRITE_U 1, 8, 0` then sets PRECOND. -/
theorem test_step_illegal_then_precond :
    (nextOf (Host.Core.run Sys2Proof.core 4
      { start p8 0 [] [] with pending := [.portWrite 0 4 0x15, .portWrite 8 4 8, .portWrite 12 4 0, .portWrite 0 4 0x102] })).map
      (·.status) = some 3 := by decide

theorem test_step_runs_first_instruction :
    (nextOf (step (State.reset.withFetchWord 32 0x102))).map (·.mem) = some [(0xA0, 0x01)] := by decide

/-- R8's and R7's own numbers. -/
theorem test_reset_params : State.reset.params.fbBytes = 6400 := by decide

/-- R70's own example of a suffixed statement, and the assembly of WRITE_U of L1.3. -/
theorem test_parse_blit :
    (parseLine ['B', 'L', 'I', 'T', '.', '2', 'B', 'P', 'P', '.', 'F', 'L', 'I', 'P', 'X', ' ', '0', 'x', '2', '0', ',',
      '0', ',', ' ', '-', '1', ',', '4', ',', '1', ',', '0', ',', '0', ',', '4', ' ', ';', 'c']).toOption =
      some (some (.command (.blit true true false false) [0x20, 0, -1, 4, 1, 0, 0, 4])) := by decide

theorem test_assemble_writeU :
    assemble p16 (.command (.writeU 2) [5, 1]) =
      [.portWrite 0x1008 4 5, .portWrite 0x100C 4 1, .portWrite 0x1000 4 0x00000202] := by decide

/-! ## Witnesses: states that meet the statements' hypotheses -/

/-- The default setup with operands on the canvas. -/
def good : State := start p8 0x4321 spriteBytes [7, 7, 8, 4]

theorem witness_Ready_and_Inv : good.Ready ∧ good.Inv ∧ good.HostDutiful := by decide
theorem witness_reset_memory : p8.WF ∧ Memory.wf [(255, 1)] = true ∧ ∀ c ∈ [((255, 1) : Host.Cell)], c.1 < p8.hostMemSize := by
  decide
theorem witness_DecodeAndEncode : (Instr.fillRow 3).wf = true ∧ decoded 0x304 = some (.fillRow 3) := by decide
theorem witness_StepRunsTheDecodedCommand :
    p16.WF ∧ (State.withFetchWord (State.resetWith p16 []) 32 0x5).pending = [.portWrite p16.portBase 4 0x5] ∧
    decoded 0x5 = some .hline ∧ Instr.hline.wf = true := by decide
theorem witness_IllegalWord :
    (State.withFetchWord (State.resetWith p16 []) 32 0xC).pending = [.portWrite p16.portBase 4 0xC] ∧
    rejected 0xC = some .reservedOpcode := by decide
theorem witness_IdleBlockWaits : State.reset.params.WF ∧ State.reset.pending = [] := by decide
theorem witness_DutifulHost :
    State.HostDutiful { good with pending :=
      [.portWrite 0x24 4 9, .portRead 0x3C 4, .memWrite 0x50 1, .memRead 255, .reset] } := by decide
theorem witness_EveryStepKeepsInv : good.Inv ∧ step good = .next good := ⟨by decide, rfl⟩
theorem witness_CommandsWriteOnlyTheFramebuffer :
    good.Ready ∧ (nextOf (exec (.writeU 1) good)).isSome = true ∧ ¬ good.params.InFramebuffer 0x3F ∧
    ¬ good.params.InFramebuffer 0x50 := by decide
theorem witness_StatusBitsAreSticky :
    (nextOf (step { good with status := 3 })).isSome = true ∧ good.pending.head? ≠ some .reset ∧
    (State.status { good with status := 3 }).getLsbD 0 = true ∧
    (State.status { good with status := 3 }).getLsbD 1 = true := by decide
theorem witness_ExceptionsArePrecise :
    (nextOf (exec (.writeU 1) (start p8 0 [] [8, 0]))).map (·.status) = some 2 ∧
    (nextOf (exec .rect (start p8 0 [] [8, 0]))).map (·.status) = some 0 := by decide
theorem witness_DrawCommandsLatch :
    (nextOf (exec .hline good)).map (·.dc) = some 0x4321 ∧ (nextOf (exec .clear good)).map (·.dc) = some 0 := by decide
/-- The last canvas pixel. -/
theorem witness_WriteU : good.Ready ∧ InCanvas good.params (sArg good 0) (sArg good 1) := by decide
/-- The nearest operands off the canvas on each side. -/
theorem witness_WriteU_outside :
    ¬ InCanvas p8 8 0 ∧ ¬ InCanvas p8 (-1) 0 ∧ ¬ InCanvas p8 0 8 ∧ ¬ InCanvas p8 0 (-1) ∧
    sArg (start p8 0 [] [8, -1]) 0 = 8 ∧ sArg (start p8 0 [] [8, -1]) 1 = -1 := by decide
theorem witness_WriteC_outside :
    ¬ InCanvas p8 (sArg (start p8 0 [] [8, 7]) 0) (sArg (start p8 0 [] [8, 7]) 1) := by decide
/-- The span up to `endX = WIDTH`. -/
theorem witness_FillRow : good.Ready ∧ SpanInCanvas good.params (sArg good 0) (sArg good 1) (sArg good 2) := by decide
theorem witness_FillRow_breach : ¬ SpanInCanvas p8 3 0 3 ∧ ¬ SpanInCanvas p8 0 0 9 ∧
    ¬ SpanInCanvas (start p8 0 [] [0, 8, 2]).params (sArg (start p8 0 [] [0, 8, 2]) 0) (sArg (start p8 0 [] [0, 8, 2]) 1)
      (sArg (start p8 0 [] [0, 8, 2]) 2) := by decide
theorem witness_SpanFastPath : p8.WF ∧ Memory.wf [(0x40, 0xFF)] = true ∧ SpanInCanvas p8 1 2 8 := by decide
theorem witness_OvalSentinel :
    (start p8 0x00F3 [] []).params.ellipseFSentinel = true ∧ nib (start p8 0x00F3 [] []).drawColors 1 = 0xF := by decide
theorem witness_OvalOfNoAxis :
    sArg (start p8 0x23 [] [1, 1, 1, 8]) 2 < 2 ∧ sArg (start p8 0x23 [] [1, 1, 8, -6]) 3 < 2 := by decide
/-- An ellipse of the least size, `a = b = 1` about `(2, 2)`, its extreme points and its centre on the canvas. -/
def ovalState (dc : Nat) : State := start p8 dc [] [1, 1, 2, 2]
/-- Without a fill, and with one. -/
theorem witness_Oval :
    (ovalState 0x20).Ready ∧ 0 < (ovalOf (ovalState 0x20).drawColors 1 1 2 2).a ∧
    0 < (ovalOf (ovalState 0x20).drawColors 1 1 2 2).b ∧ sArg (ovalState 0x20) 2 / 2 = 1 ∧
    sArg (ovalState 0x20) 3 / 2 = 1 ∧ nib (ovalState 0x20).drawColors 1 ≠ 0xF ∧ nib (ovalState 0x20).drawColors 0 = 0 ∧
    nib (ovalState 0x23).drawColors 1 ≠ 0xF ∧ nib (ovalState 0x23).drawColors 0 ≠ 0 ∧ InCanvas p8 3 2 ∧
    InCanvas p8 1 2 ∧ InCanvas p8 2 3 ∧ InCanvas p8 2 1 ∧ InCanvas p8 2 2 := by decide
/-- A stroke point of each arc, and one that a side span takes in but the top arc's stroke covers (log entry 17). -/
theorem witness_OvalArcs : SideArc 3 2 3 1 ∧ TopArc 3 2 2 1 ∧ ¬ SideArc 3 2 2 1 ∧ SideFill 3 2 2 1 :=
  ⟨by decide, by decide, by decide, 3, by decide, by decide⟩
/-- The last pixel of a side span, off both arcs. -/
theorem witness_OvalSideFill : ¬ (SideArc 3 2 1 1 ∨ TopArc 3 2 1 1) ∧ SideFill 3 2 1 1 :=
  ⟨by decide, 3, by decide, by decide⟩
/-- The last pixel of the span of a row that the top arc leaves, off both arcs. -/
theorem witness_OvalTopFill : ¬ (SideArc 3 3 1 2 ∨ TopArc 3 3 1 2) ∧ TopFill 3 3 1 2 := by
  refine ⟨by decide, ⟨2, by decide, by decide, by decide⟩, fun X1 h0 h => ?_⟩
  by_contra hx
  obtain rfl | rfl : X1 = 0 ∨ X1 = 1 := by omega
  all_goals exact absurd h (by decide)
/-- The pixel above the figure. -/
theorem witness_OvalOutside : ¬ (SideArc 1 1 0 2 ∨ TopArc 1 1 0 2) ∧ ¬ (SideFill 1 1 0 2 ∨ TopFill 1 1 0 2) := by
  refine ⟨by decide, ?_⟩
  rintro (⟨X1, ⟨_, _, h⟩, _⟩ | ⟨⟨X1, _, ⟨_, _, h⟩, _⟩, _⟩) <;> simp only [ellipseErr] at h <;> nlinarith [sq_nonneg X1]
theorem witness_OvalLoops : (0 : Int) < (Oval.a ⟨2, 2, 1, 1, 0, none⟩) ∧ (0 : Int) < (Oval.b ⟨2, 2, 1, 1, 0, none⟩) := by
  decide
theorem witness_LineWalk : (Segment.y1 ⟨0, 0, 3, 1⟩) ≤ (Segment.y2 ⟨0, 0, 3, 1⟩) ∧
    linePoints ⟨0, 0, 3, 1⟩ = [(0, 0), (1, 0), (2, 1), (3, 1)] := by decide
/-- Two atlas codes, the last of the atlas among them, a newline, a code past the atlas, and a terminator that cuts
off the rest. -/
def someText : State :=
  start p16 0x0031 [(0x100, 0x22), (0x101, 0x21), (0x102, 0x0A), (0x103, 0x23), (0x105, 0x41)] [0x100, 6, 3, -4]
theorem witness_Text_reads (k : Nat) (h : someText.ReadsCode k) : k < 5 := by
  by_contra hk
  exact h.2 4 (by omega) (by decide)
theorem witness_Text :
    someText.Ready ∧
    (∀ k, someText.ReadsCode k → (uArg someText 0).toNat + k < someText.params.hostMemSize ∧
      ¬ someText.params.InFramebuffer ((uArg someText 0).toNat + k)) ∧
    (∀ k r : Nat, someText.DrawsCode k → InAtlas someText.params ((someText.textCode k).toNat - 32) → r < 8 →
      ¬ someText.params.InFramebuffer (someText.params.fontBase + 8 * ((someText.textCode k).toNat - 32) + r)) := by
  refine ⟨by decide, fun k h => ?_, fun k r h _ hr => ?_⟩
  · have := witness_Text_reads k h
    interval_cases k <;> decide
  · have := witness_Text_reads k h.1
    interval_cases k <;> interval_cases r <;> decide
/-- The cells: two in the first line, one at the start of the second. -/
theorem witness_Text_cells :
    someText.codeX 0 = 3 ∧ someText.codeX 1 = 11 ∧ someText.codeX 3 = 3 ∧ someText.codeY 1 = -4 ∧
    someText.codeY 3 = 4 ∧ InAtlas someText.params ((someText.textCode 0).toNat - 32) ∧
    ¬ InAtlas someText.params ((someText.textCode 3).toNat - 32) ∧ InCanvas p16 (3 + 7) (-4 + 4) ∧
    someText.DrawsCode 3 :=
  ⟨by decide, by decide, by decide, by decide, by decide, by decide, by decide, by decide,
    ⟨by decide, by decide⟩, by decide, by decide⟩
/-- The least code past the atlas. -/
def offAtlas : State := start p16 0x0031 [(0x100, 0x23)] [0x100, 1, 0, 0]
theorem witness_TextOutsideTheAtlas :
    offAtlas.Ready ∧ sArg offAtlas 1 = 1 ∧ uArg offAtlas 0 < offAtlas.params.hostMemSize ∧
    ¬ offAtlas.params.InFramebuffer (uArg offAtlas 0).toNat ∧ offAtlas.mem.read (uArg offAtlas 0).toNat = 0x23 ∧
    ¬ InAtlas offAtlas.params (((0x23 : Byte).toNat : Int) - 32) := by decide
theorem witness_TextCursor : ∀ t ∈ [((0 : Nat), Token.glyph 1), (1, Token.newline)], t.2 ≠ .terminator := by decide
/-- TX4: code 1 is the terminator. -/
def cutText : State := start p16 0x0020 [(0x100, 0x21), (0x102, 0x22)] [0x100, 3, 0, 0]
theorem witness_TextStops :
    ((1 : Nat) : Int) < sArg cutText 1 ∧ (∀ i : Nat, i ≤ 1 → 0 ≤ uArg cutText 0 + i ∧ uArg cutText 0 + i < cutText.params.hostMemSize ∧
      sourceInFramebuffer cutText.params (uArg cutText 0 + i) = false) ∧
    cutText.mem.read (uArg cutText 0 + 1).toNat = 0 := by decide
/-- A sprite in the byte before the framebuffer, and one in its first byte. -/
def blitState (ptr : Int) : State := start p8 0x4321 spriteBytes [ptr, 7, 7, 4, 1, 0, 0, 4]
theorem witness_Blit :
    (blitState 0x3F).Ready ∧ (blitSprite (blitState 0x3F) true false false false).samplesFramebuffer p8 = false := by
  decide
theorem witness_Blit_framebuffer :
    (blitState 0x40).Ready ∧ (blitSprite (blitState 0x40) true false false false).samplesFramebuffer p8 = true := by
  decide
theorem witness_Sample :
    (blitSprite good true false false false).sampleXY p8 0 0 = (0, 0) ∧
    0 ≤ (blitSprite good true false false false).byteAddr p8 0 0 ∧
    (blitSprite good true false false false).byteAddr p8 0 0 < (p8.hostMemSize : Int) ∧
    ¬ p8.InFramebuffer ((blitSprite good true false false false).byteAddr p8 0 0).toNat := by decide
/-- Both settings of `FLIP_BASIS` occur, and all eight orientations. -/
theorem witness_RotateAndFlip :
    p8.flipBasis = .declared ∧ (blitSprite good false true false true).rotate = true ∧
    (blitSprite good false true false true).flipX = true ∧ (blitSprite good false true true false).flipY = true := by
  decide
/-- One pixel wide and high, in the canvas's last corner, from the byte before the framebuffer: 1bpp, not turned. -/
theorem witness_BlitDrawsItsBitmap :
    let s := start p8 0x4321 spriteBytes [0x3F, 7, 7, 1, 1, 7, 0, 8]
    s.Ready ∧ (sArg s 3, sArg s 4) = (1, 1) ∧
    ∀ c r : Int, 0 ≤ c → c < 1 → 0 ≤ r → r < 1 → InCanvas s.params (sArg s 1 + c) (sArg s 2 + r) →
      0 ≤ uArg s 0 + ((sArg s 6 + r) * sArg s 7 + (sArg s 5 + c)) / 8 ∧
      uArg s 0 + ((sArg s 6 + r) * sArg s 7 + (sArg s 5 + c)) / 8 < s.params.hostMemSize ∧
      ¬ s.params.InFramebuffer (uArg s 0 + ((sArg s 6 + r) * sArg s 7 + (sArg s 5 + c)) / 8).toNat := by
  refine ⟨by decide, by decide, fun c r _ _ _ _ _ => ?_⟩
  obtain rfl : c = 0 := by omega
  obtain rfl : r = 0 := by omega
  decide
theorem witness_FlipBases :
    0 ≤ (blitSprite (blitState 0x20) true true false false).dstX - 7 ∧
    (blitSprite ((blitState 0x20).setArgs (loadArgs Args.zero 0 [0x20, 4, 7, 4, 1, 0, 0, 4])) true true false false).dstX +
      (blitSprite ((blitState 0x20).setArgs (loadArgs Args.zero 0 [0x20, 4, 7, 4, 1, 0, 0, 4])) true true false false).width ≤
      p8.width ∧
    (blitSprite ((blitState 0x20).setArgs (loadArgs Args.zero 0 [0x20, 4, 7, 4, 1, 0, 0, 4])) true true false false).dstY +
      (blitSprite ((blitState 0x20).setArgs (loadArgs Args.zero 0 [0x20, 4, 7, 4, 1, 0, 0, 4])) true true false false).height ≤
      p8.height := by decide
theorem witness_PortAccesses :
    portReg 0x28 = some .reserved ∧ portReg 0x3C = some .reserved ∧ portReg 0x40 = none ∧ portReg 0x02 = none ∧
    portAccess p16 0x1024 4 = some (.arg 7) ∧ portAccess p16 0x1024 2 = none ∧ portAccess p16 0x1026 4 = none := by decide
/-- The framebuffer's first and last byte, and the bytes next to them. -/
theorem witness_HostWrites :
    good.Ready ∧ p8.InFramebuffer 0x40 ∧ p8.InFramebuffer 0x4F ∧ ¬ p8.InFramebuffer 0x3F ∧ ¬ p8.InFramebuffer 0x50 ∧
    0x50 < p8.hostMemSize := by decide
theorem witness_Reset : (nextOf (step { good with status := 3, pending := [.reset] })).map (·.status) = some 0 := by decide
theorem witness_SetDc :
    good.Ready ∧ 0xFFFF ≤ 0xFFFF ∧ assemble p8 (.setDc 0x4321) = [.memWrite 4 0x21, .memWrite 5 0x43] := by decide
theorem witness_CmdReadsBack :
    State.pending { good with pending := [.portWrite p8.portBase 4 0xC, .portRead p8.portBase 4] } =
      .portWrite good.params.portBase 4 0xC :: .portRead good.params.portBase 4 :: [] := by decide
/-- The last byte of host memory, and the last canvas pixel's byte, which is the framebuffer's last. -/
theorem witness_HostReads :
    255 < p8.hostMemSize ∧ 7 < p8.width ∧ 7 < p8.height ∧ p8.fbBase + (p8.width * 7 + 7) / 4 = 0x4F ∧
    State.pending { good with pending := [.memRead 0x4F] } = .memRead 0x4F :: [] := by decide
/-- The state that holds the assembled actions of a statement. -/
theorem witness_AssembledCommand_pending :
    State.pending { good with pending := assemble p8 (.command .hline [-2, 3, 5]) } =
      assemble good.params (.command .hline [-2, 3, 5]) := rfl
theorem witness_AssembledCommand :
    p8.WF ∧ (Stmt.command .hline [-2, 3, 5]).wf = true ∧ assemble p8 (.command .hline [-2, 3, 5]) =
      [.portWrite 8 4 0xFFFFFFFE, .portWrite 12 4 3, .portWrite 16 4 5, .portWrite 0 4 5] := by decide

end Sys2Proof.Tests
end

/-! PROOFS. The machine's invariant: what each update of the state does to it, and that every command, every host
action and every step keeps it. -/

namespace Sys2Proof.Machine

open Sys2Proof

/-! ## The parts of the invariant -/

/-- The framebuffer lies in host memory (R7, R26). -/
theorem Params.lt_hostMemSize_of_inFramebuffer {p : Params} (hp : p.WF) {a : Nat} (ha : p.InFramebuffer a) :
    a < p.hostMemSize := by
  obtain ⟨_, _, _, _, hfb, _⟩ := hp
  exact ha.2.trans_le hfb

/-- An exception's cause bit is none of the reserved bits of `STATUS` (R22). -/
theorem Exception.mask_reserved (e : Exception) : e.mask &&& ~~~statusMask = 0 := by
  cases e <;> decide

section

variable {s : State} (hs : s.Inv)

/-! ## What each update does to the invariant -/

include hs

theorem State.Inv.setCmd (w : Word) : (s.setCmd w).Inv := hs

theorem State.Inv.setArgs (r : Args) : (s.setArgs r).Inv := hs

theorem State.Inv.setHostData (w : Word) : (s.setHostData w).Inv := hs

theorem State.Inv.setPending (q : List HostAction) : (s.setPending q).Inv := hs

theorem State.Inv.latch : s.latch.Inv := hs

theorem State.Inv.setStatus {w : Word} (hw : w &&& ~~~statusMask = 0) : (s.setStatus w).Inv := by
  obtain ⟨hp, hwf, hin, _⟩ := hs
  exact ⟨hp, hwf, hin, hw⟩

theorem State.Inv.raise (e : Exception) : (s.raise e).Inv := by
  have ⟨_, _, _, hst⟩ := hs
  refine hs.setStatus ?_
  calc (s.status ||| e.mask) &&& ~~~statusMask
      = s.status &&& ~~~statusMask ||| e.mask &&& ~~~statusMask := by
        ext i; simp [Bool.and_or_distrib_right]
    _ = 0 := by rw [hst, e.mask_reserved]; rfl

theorem State.Inv.resetBlock : (resetBlock s).Inv := hs.setStatus (w := 0) BitVec.zero_and

/-- A new memory must be in canonical form, and each cell it lists an old one or one of host memory. -/
theorem State.Inv.setMem {m : Memory} (hwf : m.wf = true)
    (hcell : ∀ c ∈ m, c ∈ s.mem ∨ c.1 < s.params.hostMemSize) : (s.setMem m).Inv := by
  obtain ⟨hp, _, hin, hst⟩ := hs
  exact ⟨hp, hwf, fun c hc => (hcell c hc).elim (hin c) id, hst⟩

theorem State.Inv.write {a : Nat} (ha : a < s.params.hostMemSize) (v : Byte) : (s.setMem (s.mem.write a v)).Inv := by
  have ⟨_, hwf, _, _⟩ := hs
  refine hs.setMem (Memory.write_wf hwf a v) fun c hc => ?_
  exact (Memory.mem_write hc).imp_right fun hca => hca.trans_lt ha

/-- CLEAR's fill of the framebuffer (R84). -/
theorem State.Inv.fillFramebuffer (v : Byte) :
    (s.setMem (fillBytes v s.params.fbBytes s.params.fbBase s.mem)).Inv := by
  have ⟨hp, hwf, _, _⟩ := hs
  refine hs.setMem (fillBytes_wf hwf) fun c hc => ?_
  exact (mem_fillBytes hc).imp_right (Params.lt_hostMemSize_of_inFramebuffer hp)

/-- Pixel writes on the canvas go to framebuffer bytes (R45). -/
theorem State.Inv.paint {ws : List PixelWrite} (hc : ∀ w ∈ ws, InCanvas s.params w.x w.y) : (s.paint ws).Inv := by
  have ⟨hp, hwf, _, _⟩ := hs
  have ⟨_, hwidth, _⟩ := hp
  refine hs.setMem (putPixels_wf hwf ws) fun c hmem => ?_
  exact (mem_putPixels hwidth hc hmem).imp_right (Params.lt_hostMemSize_of_inFramebuffer hp)

/-! ## Commands, host actions and steps -/

theorem exec_keeps_inv {i : Instr} {t : State} (h : exec i s = .next t) : t.Inv := by
  obtain ⟨e, _⟩ | ⟨_, e⟩ | ⟨ws, e, hc, _⟩ | ⟨ws, e, hc, _⟩ := exec_cases i s <;>
    obtain rfl := Host.Outcome.next.inj (h.symm.trans e)
  case inl => exact hs.raise .precond
  case inr.inl => exact hs.fillFramebuffer 0
  case inr.inr.inl => exact hs.paint hc
  case inr.inr.inr => exact hs.latch.paint hc

theorem act_keeps_inv {a : HostAction} {t : State} (h : act a s = .next t) : t.Inv := by
  obtain ⟨w, i, _, e⟩ | ⟨w, _, _, rfl⟩ | ⟨i, w, rfl⟩ | rfl | ⟨w, rfl⟩ | ⟨b, v, hb, _, rfl⟩ | ⟨_, rfl⟩ := act_cases h
  · exact exec_keeps_inv (hs.setCmd w) e
  · exact (hs.setCmd w).raise .illegal
  · exact hs.setArgs _
  · exact hs
  · exact hs.setHostData w
  · exact hs.write hb v
  · exact hs.resetBlock

theorem step_keeps_inv {t : State} (h : step s = .next t) : t.Inv := by
  obtain ⟨_, ⟨_, rfl⟩ | ⟨a, rest, _, hact⟩⟩ := step_cases h
  · exact hs
  · exact act_keeps_inv (hs.setPending rest) hact

end

/-- Settles O8: a step waits or carries out one host action, and each of those keeps the invariant. -/
theorem everyStepKeepsInv : Obligations.EveryStepKeepsInv := by
  unfold Obligations.EveryStepKeepsInv
  exact fun _ _ hs h => step_keeps_inv hs h

end Sys2Proof.Machine

/-! PROOFS. The machine's state: what one step, one host access and one command does to the registers and to host
memory, and the statements about `STATUS`, the command port, the draw-color register and host memory. -/

namespace Sys2Proof.Machine

open Sys2Proof

/-! ## One step, and a run of steps -/

/-- Under legal parameters a step carries out the first pending action (R50). -/
theorem step_eq_act {s : State} (hp : s.params.WF) {a : HostAction} {rest : List HostAction}
    (h : s.pending = a :: rest) : step s = act a (s.setPending rest) := by
  simp only [step, hostStep, if_pos hp, h]

/-- Two steps in a row are a run of two steps. -/
theorem run_two {s u t : State} (hu : step s = .next u) (ht : step u = .next t) :
    Host.Core.run Sys2Proof.core 2 s = .next t := by
  simp only [Host.Core.run, show Sys2Proof.core.step s = .next u from hu, show Sys2Proof.core.step u = .next t from ht]

/-! ## The host's accesses to the port -/

theorem portAccess_base_add (p : Params) (off : Nat) : portAccess p (p.portBase + off) 4 = portReg off := by
  simp [portAccess]

theorem portReg_arg (i : Fin 8) : portReg (0x08 + 4 * i.val) = some (.arg i) := by
  revert i; decide

theorem portReg_reserved {off : Nat} (h4 : off % 4 = 0) (hlo : 0x28 ≤ off) (hhi : off ≤ 0x3C) :
    portReg off = some .reserved := by
  simp [portReg, h4, show off ≠ 0 by omega, show off ≠ 4 by omega, show ¬ off ≤ 0x24 by omega, hhi]

/-- A host write to the register at an offset of the port (R60). -/
theorem step_portWrite {s : State} (hp : s.params.WF) {off : Nat} {r : PortReg} (hr : portReg off = some r)
    {w : Word} {rest : List HostAction} (h : s.pending = .portWrite (s.params.portBase + off) 4 w :: rest) :
    step s = writePort r w (s.setPending rest) := by
  rw [step_eq_act hp h]
  simp only [act, State.setPending_params, portAccess_base_add, hr]

/-- A host read of the register at an offset of the port (R60). -/
theorem step_portRead {s : State} (hp : s.params.WF) {off : Nat} {r : PortReg} (hr : portReg off = some r)
    {rest : List HostAction} (h : s.pending = .portRead (s.params.portBase + off) 4 :: rest) :
    step s = .next ((s.setPending rest).setHostData (readPort r (s.setPending rest))) := by
  rw [step_eq_act hp h]
  simp only [act, State.setPending_params, portAccess_base_add, hr]

/-! ## The host's accesses to host memory -/

/-- A host write to a framebuffer byte has no transition (R196). -/
theorem step_memWrite_inFramebuffer {s : State} (hp : s.params.WF) {a : Nat} (ha : s.params.InFramebuffer a)
    {v : Byte} {rest : List HostAction} (h : s.pending = .memWrite a v :: rest) :
    step s = .refused .hostFramebufferWrite := by
  have hlt := Params.lt_hostMemSize_of_inFramebuffer hp ha
  exact (step_eq_act hp h).trans ((if_neg (not_le.2 hlt)).trans (if_pos ha))

/-- A host write elsewhere in host memory stores the byte. -/
theorem step_memWrite {s : State} (hp : s.params.WF) {a : Nat} (hlt : a < s.params.hostMemSize)
    (ha : ¬ s.params.InFramebuffer a) {v : Byte} {rest : List HostAction} (h : s.pending = .memWrite a v :: rest) :
    step s = .next ((s.setPending rest).setMem (s.mem.write a v)) :=
  (step_eq_act hp h).trans ((if_neg (not_le.2 hlt)).trans (if_neg ha))

/-- A host read inside host memory returns the byte there (R26). -/
theorem step_memRead {s : State} (hp : s.params.WF) {a : Nat} (hlt : a < s.params.hostMemSize)
    {rest : List HostAction} (h : s.pending = .memRead a :: rest) :
    step s = .next ((s.setPending rest).setHostData ((s.mem.read a).setWidth 32)) :=
  (step_eq_act hp h).trans (if_neg (not_le.2 hlt))

/-! ## Commands -/

/-- A command completes, and keeps `CMD`, the argument registers, the parameters and the host's side (R20, R23). -/
theorem exec_keeps_port (i : Instr) (s : State) :
    ∃ t, exec i s = .next t ∧ t.cmd = s.cmd ∧ t.args = s.args ∧
      t.params = s.params ∧ t.pending = s.pending ∧ t.hostData = s.hostData := by
  obtain ⟨e, _⟩ | ⟨_, e⟩ | ⟨ws, e, _⟩ | ⟨ws, e, _⟩ := exec_cases i s <;>
    exact ⟨_, e, rfl, rfl, rfl, rfl, rfl⟩

/-- A command leaves `STATUS` as it is, or sets the bit of PRECOND in it (R171). -/
theorem exec_status {i : Instr} {s t : State} (h : exec i s = .next t) :
    t.status = s.status ∨ t.status = s.status ||| Exception.precond.mask := by
  obtain ⟨e, _⟩ | ⟨_, e⟩ | ⟨ws, e, _⟩ | ⟨ws, e, _⟩ := exec_cases i s <;>
    obtain rfl := Host.Outcome.next.inj (h.symm.trans e)
  case inl => exact .inr rfl
  all_goals exact .inl rfl

/-- Whatever word is written to `CMD`, the block goes on to a next state with the word in `CMD` (R62, R170). -/
theorem issue_keeps_cmd (w : Word) (s : State) :
    ∃ t, issue w s = .next t ∧ t.cmd = w ∧ t.params = s.params ∧ t.pending = s.pending := by
  unfold issue
  cases decode w with
  | ok i =>
    obtain ⟨t, e, hcmd, _, hparams, hpending, _⟩ := exec_keeps_port i (s.setCmd w)
    exact ⟨t, e, hcmd, hparams, hpending⟩
  | error _ => exact ⟨_, rfl, rfl, rfl, rfl⟩

/-! ### Bits of `STATUS` -/

theorem exec_status_sticky {i : Instr} {s t : State} (h : exec i s = .next t) {k : Nat}
    (hk : s.status.getLsbD k = true) : t.status.getLsbD k = true := by
  obtain e | e := exec_status h <;> simp [e, hk]

/-- Every host action but a reset keeps the set bits of `STATUS` (R22). -/
theorem act_status_sticky {a : HostAction} {s t : State} (h : act a s = .next t) (ha : a ≠ .reset) {k : Nat}
    (hk : s.status.getLsbD k = true) : t.status.getLsbD k = true := by
  obtain ⟨w, i, _, e⟩ | ⟨w, _, _, rfl⟩ | ⟨i, w, rfl⟩ | rfl | ⟨w, rfl⟩ | ⟨b, v, _, _, rfl⟩ | ⟨hr, _⟩ := act_cases h
  · exact exec_status_sticky e hk
  · simp [hk]
  · exact hk
  · exact hk
  · exact hk
  · exact hk
  · exact absurd hr ha

/-! ### What a command does not read: `STATUS` -/

theorem latch_setStatus (s : State) (v : Word) : (s.setStatus v).latch = s.latch.setStatus v := rfl

theorem paint_setStatus (s : State) (v : Word) (ws : List PixelWrite) :
    (s.setStatus v).paint ws = (s.paint ws).setStatus v := rfl

theorem textWrites_setStatus (s : State) (v : Word) : textWrites (s.setStatus v) = textWrites s := rfl

theorem blitSprite_setStatus (s : State) (v : Word) (bpp2 flipX flipY rotate : Bool) :
    blitSprite (s.setStatus v) bpp2 flipX flipY rotate = blitSprite s bpp2 flipX flipY rotate := rfl

theorem blitWrites_setStatus (s : State) (v : Word) (b : Sprite) :
    blitWrites (s.setStatus v) b = blitWrites s b := rfl

/-- A command run under another `STATUS` ends in the same state but for `STATUS` (R172). -/
theorem exec_setStatus (i : Instr) (s : State) (v : Word) :
    ∃ t v', exec i s = .next t ∧ exec i (s.setStatus v) = .next (t.setStatus v') := by
  cases i with
  | clear => exact ⟨_, v, rfl, rfl⟩
  | writeU c =>
    by_cases h : InCanvas s.params (sArg s 0) (sArg s 1)
    · exact ⟨_, v, if_pos h, if_pos h⟩
    · exact ⟨_, _, if_neg h, if_neg h⟩
  | writeC c => exact ⟨_, v, rfl, rfl⟩
  | fillRow c =>
    by_cases h : SpanInCanvas s.params (sArg s 0) (sArg s 1) (sArg s 2)
    · exact ⟨_, v, if_pos h, if_pos h⟩
    · exact ⟨_, _, if_neg h, if_neg h⟩
  | hline => exact ⟨_, v, rfl, rfl⟩
  | vline => exact ⟨_, v, rfl, rfl⟩
  | rect => exact ⟨_, v, rfl, rfl⟩
  | oval => exact ⟨_, v, rfl, rfl⟩
  | line => exact ⟨_, v, rfl, rfl⟩
  | text =>
    refine ⟨_, v, rfl, ?_⟩
    simp only [exec, execText, latch_setStatus, paint_setStatus, textWrites_setStatus]
  | blit bpp2 flipX flipY rotate =>
    refine ⟨_, v, rfl, ?_⟩
    simp only [exec, execBlit, latch_setStatus, paint_setStatus, blitSprite_setStatus, blitWrites_setStatus]

/-! ### Host memory outside the framebuffer -/

/-- No command writes outside the framebuffer: CLEAR fills it, and every pixel write is on the canvas (R45). -/
theorem exec_read_outside {i : Instr} {s t : State} (hs : s.Ready) (h : exec i s = .next t) {a : Nat}
    (ha : ¬ s.params.InFramebuffer a) : t.mem.read a = s.mem.read a := by
  obtain ⟨⟨_, hwidth, _⟩, hwf⟩ := hs
  obtain ⟨e, _⟩ | ⟨_, e⟩ | ⟨ws, e, hc, _⟩ | ⟨ws, e, hc, _⟩ := exec_cases i s <;>
    obtain rfl := Host.Outcome.next.inj (h.symm.trans e)
  case inl => rfl
  case inr.inl => exact (read_fillBytes hwf a).trans (if_neg ha)
  case inr.inr.inl => exact read_putPixels_outside hwidth hwf hc ha
  case inr.inr.inr => exact read_putPixels_outside hwidth hwf hc ha

/-! ## The draw-color register -/

theorem memRead_of_lt {s : State} {a : Nat} (h : a < s.params.hostMemSize) (d : Draw) :
    s.memRead d (a : Int) = s.mem.read a := by
  simp [State.memRead, h]

/-- The draw-color register is the two bytes at `DC_ADDR`, the low one first (R24, R42). -/
theorem drawColors_eq {s : State} (hp : s.params.WF) :
    s.drawColors = s.mem.read (s.params.dcAddr + 1) ++ s.mem.read s.params.dcAddr := by
  obtain ⟨_, _, _, _, _, hdc, _⟩ := hp
  have hlow := memRead_of_lt (s := s) (a := s.params.dcAddr) (by omega)
  have hhigh := memRead_of_lt (s := s) (a := s.params.dcAddr + 1) (by omega)
  simp only [State.drawColors, hlow, ← Nat.cast_add_one, hhigh]

/-- The value of two bytes, the high one first. -/
theorem toNat_append_byte (hi lo : Byte) : (hi ++ lo : BitVec 16).toNat = lo.toNat + 256 * hi.toNat := by
  rw [BitVec.toNat_append, ← Nat.shiftLeft_add_eq_or_of_lt lo.isLt, Nat.shiftLeft_eq]
  omega

/-- What a read gives after writes to two neighbouring bytes. -/
theorem Memory.read_write_two {m : Memory} (hm : m.wf = true) (a b : Nat) (lo hi : Byte) :
    ((m.write a lo).write (a + 1) hi).read b = if b = a + 1 then hi else if b = a then lo else m.read b := by
  rw [Memory.read_write (Memory.write_wf hm a lo), Memory.read_write hm]

/-- SETDC's two bytes make up its operand (R71). -/
theorem setDc_bytes {v : Nat} (hv : v ≤ 0xFFFF) :
    (BitVec.ofNat 8 ((v >>> 8) &&& 0xFF) ++ BitVec.ofNat 8 (v &&& 0xFF) : BitVec 16) = BitVec.ofNat 16 v := by
  have hand (n : Nat) : n &&& 0xFF = n % 256 := Nat.and_two_pow_sub_one_eq_mod n 8
  apply BitVec.eq_of_toNat_eq
  rw [toNat_append_byte]
  simp only [BitVec.toNat_ofNat, hand, Nat.shiftRight_eq_div_pow]
  omega

/-! ## A pixel in its byte -/

/-- The address of a canvas pixel's byte, over the natural numbers (R80). -/
theorem pixelAddr_natCast (p : Params) (x y : Nat) :
    pixelAddr p (x : Int) (y : Int) = p.fbBase + (p.width * y + x) / 4 := by
  have h : fbIndex p (x : Int) (y : Int) = ((p.width * y + x) / 4 : Nat) := by rw [fbIndex_eq]; push_cast; rfl
  simp only [pixelAddr, h]
  omega

/-- A pixel is the bit pair `x mod 4` of its byte, counted from the least significant (R26, R81). -/
theorem pix_toNat (p : Params) (m : Memory) (x y : Nat) :
    (pix p m x y).toNat = (m.read (pixelAddr p x y)).toNat / 4 ^ (x % 4) % 4 := by
  have hshift : fbShift (x : Int) = 2 * (x % 4) := by rw [fbShift_eq]; omega
  simp [pix, hshift, Nat.shiftRight_eq_div_pow, Nat.pow_mul]

/-! ## Reset -/

theorem resetWith_inv {p : Params} {m : Memory} (hp : p.WF) (hm : m.wf = true)
    (hin : ∀ c ∈ m, c.1 < p.hostMemSize) : (State.resetWith p m).Inv :=
  ⟨hp, hm, hin, BitVec.zero_and⟩

/-! ## The statements -/

/-- Settles O11: the frame of every command, from `exec_cases`. -/
theorem commandsWriteOnlyTheFramebuffer : Obligations.CommandsWriteOnlyTheFramebuffer := by
  unfold Obligations.CommandsWriteOnlyTheFramebuffer
  exact fun _ _ _ hs h _ ha => exec_read_outside hs h ha

/-- Settles O13: an idle step changes nothing, and every host action but a reset keeps the set bits. -/
theorem statusBitsAreSticky : Obligations.StatusBitsAreSticky := by
  unfold Obligations.StatusBitsAreSticky
  intro s t k h hreset hk
  obtain ⟨_, ⟨_, rfl⟩ | ⟨a, rest, hpend, hact⟩⟩ := step_cases h
  · exact hk
  · refine act_status_sticky hact ?_ hk
    rintro rfl
    exact hreset (by rw [hpend]; rfl)

/-- Settles O14: no command reads `STATUS`. -/
theorem statusDoesNotBlockCommands : Obligations.StatusDoesNotBlockCommands := by
  unfold Obligations.StatusDoesNotBlockCommands
  intro i s v
  obtain ⟨t, v', e, e'⟩ := exec_setStatus i s v
  exact ⟨t, t.setStatus v', e, e', rfl⟩

/-- Settles O15: of the ways in which a command can end, only that of a draw command latches. -/
theorem drawCommandsLatchDrawColors : Obligations.DrawCommandsLatchDrawColors := by
  unfold Obligations.DrawCommandsLatchDrawColors
  intro i s t h
  obtain ⟨e, c, hi⟩ | ⟨hi, e⟩ | ⟨ws, e, _, c, hi⟩ | ⟨ws, e, _, hclear, hi⟩ := exec_cases i s <;>
    obtain rfl := Host.Outcome.next.inj (h.symm.trans e)
  case inl => obtain rfl | rfl := hi <;> rfl
  case inr.inl => subst hi; rfl
  case inr.inr.inl => obtain rfl | rfl | rfl := hi <;> rfl
  case inr.inr.inr =>
    split
    · exact absurd rfl hclear
    · exact absurd rfl (hi _).1
    · exact absurd rfl (hi _).2.1
    · exact absurd rfl (hi _).2.2
    · rfl

/-- Settles O50: the write sets the register, and the read returns it. -/
theorem argRegisterReadsBack : Obligations.ArgRegisterReadsBack := by
  unfold Obligations.ArgRegisterReadsBack
  intro s i w rest hp hpend
  rw [Nat.add_assoc] at hpend
  set u := (s.setPending (.portRead (s.params.portBase + (0x08 + 4 * i.val)) 4 :: rest)).setArgs (s.args.set i w)
  have hwrite : step s = .next u := step_portWrite hp (portReg_arg i) hpend
  have hread : step u = .next ((u.setPending rest).setHostData w) :=
    (step_portRead (s := u) hp (portReg_arg i) rfl).trans
      (congrArg (Host.Outcome.next <| (u.setPending rest).setHostData ·) (Args.get_set_same s.args i w))
  exact ⟨_, run_two hwrite hread, rfl, Args.get_set_same _ _ _, fun j hj => Args.get_set_other _ _ _ _ hj, rfl⟩

/-- Settles O51: the register at the offset is `STATUS` or a reserved one. -/
theorem statusAndReservedIgnoreWrites : Obligations.StatusAndReservedIgnoreWrites := by
  unfold Obligations.StatusAndReservedIgnoreWrites
  intro s off w rest hp hoff
  obtain rfl | ⟨h4, hlo, hhi⟩ := hoff
  · have hr : portReg 0x04 = some .status := by decide
    exact ⟨step_portWrite hp hr, step_portRead hp hr⟩
  · have hr := portReg_reserved h4 hlo hhi
    rw [if_neg (by omega)]
    exact ⟨step_portWrite hp hr, step_portRead hp hr⟩

/-- Settles O53: a host write is refused in the framebuffer, and elsewhere stores its byte. -/
theorem hostWritesOnlyOutsideTheFramebuffer : Obligations.HostWritesOnlyOutsideTheFramebuffer := by
  unfold Obligations.HostWritesOnlyOutsideTheFramebuffer
  intro s a v rest ⟨hp, hwf⟩ hlt hpend
  refine ⟨fun ha => step_memWrite_inFramebuffer hp ha hpend, fun ha => ?_⟩
  exact ⟨_, step_memWrite hp hlt ha hpend, rfl, fun b => Memory.read_write hwf a b v⟩

/-- Settles O55: the two writes store the low and the high byte of `v`, and the register reads them back. -/
theorem setDcSetsTheDrawColors : Obligations.SetDcSetsTheDrawColors := by
  unfold Obligations.SetDcSetsTheDrawColors
  intro s v ⟨hp, hwf⟩ hv hpend
  have ⟨_, _, _, _, _, hdc, hlow, hhigh, _⟩ := hp
  set lo : Byte := BitVec.ofNat 8 (v &&& 0xFF)
  set hi : Byte := BitVec.ofNat 8 ((v >>> 8) &&& 0xFF)
  set u := (s.setPending [.memWrite (s.params.dcAddr + 1) hi]).setMem (s.mem.write s.params.dcAddr lo)
  have hstep1 : step s = .next u := step_memWrite hp (by omega) hlow hpend
  have hstep2 := step_memWrite (s := u) hp (show s.params.dcAddr + 1 < s.params.hostMemSize by omega) hhigh rfl
  have hread (a : Nat) := Memory.read_write_two hwf s.params.dcAddr a lo hi
  refine ⟨_, run_two hstep1 hstep2, ?_, rfl, fun a ha0 ha1 => ?_⟩
  · have hbytes : hi ++ lo = BitVec.ofNat 16 v := setDc_bytes hv
    rw [drawColors_eq, ← hbytes, State.setMem_mem]
    · congr 1
      · exact (hread _).trans (if_pos rfl)
      · exact (hread _).trans ((if_neg (Nat.ne_add_one _)).trans (if_pos rfl))
    · exact hp
  · exact (hread a).trans ((if_neg ha1).trans (if_neg ha0))

/-- Settles O60: every word written to `CMD` leads on with the word in `CMD`; a host read returns its byte; and a
canvas pixel is a bit pair of its byte. -/
theorem cmdAndHostMemoryReadBack : Obligations.CmdAndHostMemoryReadBack := by
  unfold Obligations.CmdAndHostMemoryReadBack
  refine ⟨fun s w rest hp hpend => ?_, fun s addr rest hp hlt hpend => step_memRead hp hlt hpend,
    fun s x y rest hp hx hy hpend => ?_⟩
  · have hr : portReg 0 = some .cmd := by decide
    obtain ⟨u, e, hcmd, hparams, hpending⟩ := issue_keeps_cmd w (s.setPending (.portRead s.params.portBase 4 :: rest))
    have hread := step_portRead (s := u) (hparams ▸ hp) hr (rest := rest) (by rw [hpending, hparams]; rfl)
    refine ⟨u, (step_portWrite hp hr hpend).trans e, hcmd, ?_⟩
    simpa [readPort, hcmd] using hread
  · have ⟨_, hwidth, _⟩ := hp
    have hc : InCanvas s.params x y := by refine ⟨?_, ?_, ?_, ?_⟩ <;> omega
    have hlt := Params.lt_hostMemSize_of_inFramebuffer hp (pixelAddr_inFramebuffer hwidth hc)
    rw [← pixelAddr_natCast] at hpend
    refine ⟨_, step_memRead hp hlt hpend, ?_⟩
    rw [State.pixAt, pix_toNat, State.setHostData_hostData, BitVec.toNat_setWidth_of_le (by decide)]

/-- Settles O7: the reset state over any legal parameters and canonical memory, the empty one among them. -/
theorem resetMeetsInv : Obligations.ResetMeetsInv := by
  unfold Obligations.ResetMeetsInv
  refine ⟨rfl, rfl, resetWith_inv (by decide) rfl (by simp), fun _ _ => resetWith_inv⟩

/-- Settles O10: by `exec_cases`, no way in which a command ends touches these fields. -/
theorem commandsCompleteAndKeepPortRegisters : Obligations.CommandsCompleteAndKeepPortRegisters := by
  unfold Obligations.CommandsCompleteAndKeepPortRegisters
  exact exec_keeps_port

/-- Settles O16: the register is the two bytes, appended. -/
theorem drawColorsAreLittleEndian : Obligations.DrawColorsAreLittleEndian := by
  unfold Obligations.DrawColorsAreLittleEndian
  intro s hp
  rw [drawColors_eq hp, toNat_append_byte]

end Sys2Proof.Machine

/-! PROOFS. Source memory: the field of a byte that a sample takes, the pixels that a sprite and a BLIT paint, and the
port accesses that run a command or are refused. -/

namespace Sys2Proof.Machine

open Sys2Proof

/-! ## Reads of source bytes -/

/-- A source byte of host memory outside the framebuffer is the byte stored there (R44, R48). -/
theorem sourceRead_of_stored {s : State} {a : Int} (h0 : 0 ≤ a) (hlt : a < s.params.hostMemSize)
    (hfb : ¬ s.params.InFramebuffer a.toNat) (d : Draw) : s.sourceRead d a = s.mem.read a.toNat := by
  have hout : sourceInFramebuffer s.params a = false := by
    simp only [sourceInFramebuffer, decide_eq_false_iff_not]
    rintro ⟨hlo, hhi⟩
    exact hfb ⟨by omega, by omega⟩
  simp [State.sourceRead, State.memRead, hout, h0, hlt]

/-! ## A sample -/

theorem lowBits_eq (a : Int) (k : Nat) : lowBits a k = (a % (2 ^ k : Nat)).toNat := rfl

/-- The field of a byte at a bit index, as a number: a bit pair or a bit, the most significant one at index 0 (R41). -/
theorem sampleField_toNat (bpp2 : Bool) (v : Byte) (bi : Int) :
    (sampleField bpp2 v bi).toNat =
      if bpp2 then v.toNat / 2 ^ (6 - 2 * (bi % 4).toNat) % 4 else v.toNat / 2 ^ (7 - (bi % 8).toNat) % 2 := by
  cases bpp2 with
  | true => simp [sampleField, lowBits_eq, Nat.shiftLeft_eq, Nat.shiftRight_eq_div_pow, Nat.mul_comm]
  | false =>
    simp only [sampleField, lowBits_eq, Bool.false_eq_true, if_false, BitVec.toNat_setWidth, BitVec.toNat_ushiftRight,
      Nat.shiftRight_eq_div_pow]
    exact Nat.mod_eq_of_lt (by omega)

/-- The host address of a sample's byte: `bi` pixels after `base`, four or eight to a byte (R154). -/
theorem Sprite.byteAddr_eq (p : Params) (b : Sprite) (c r : Int) :
    b.byteAddr p c r = b.base + if b.bpp2 then b.bitIndex p c r / 4 else b.bitIndex p c r / 8 := by
  rw [Sprite.byteAddr, asr_two, asr_three]

/-- A sample whose byte lies in host memory outside the framebuffer is a field of that byte (R154). -/
theorem Sprite.sample_of_stored {s : State} {b : Sprite} {c r : Int} (h0 : 0 ≤ b.byteAddr s.params c r)
    (hlt : b.byteAddr s.params c r < s.params.hostMemSize)
    (hfb : ¬ s.params.InFramebuffer (b.byteAddr s.params c r).toNat) (serial glyph : Nat) :
    b.sample s serial glyph c r =
      sampleField b.bpp2 (s.mem.read (b.byteAddr s.params c r).toNat) (b.bitIndex s.params c r) := by
  rw [Sprite.sample, sourceRead_of_stored h0 hlt hfb]

/-! ## The pixels of a sprite -/

/-- Canvas pixel `(x, y)` lies in the sprite's extent (R151). -/
abbrev Sprite.Covers (b : Sprite) (x y : Int) : Prop :=
  0 ≤ x - b.dstX ∧ x - b.dstX < b.width ∧ 0 ≤ y - b.dstY ∧ y - b.dstY < b.height

/-- The color that the sampler gives canvas pixel `(x, y)`, if it writes it: that of the local pixel's logical index,
or a free one when the command reads framebuffer bytes (R155, R48). -/
def Sprite.pixelColor (dc : BitVec 16) (b : Sprite) (idx : Int → Int → Color) (tainted : Bool) (serial glyph : Nat)
    (x y : Int) : Option Color :=
  if b.Covers x y then
    (spriteColor dc (idx (x - b.dstX) (y - b.dstY))).map fun col =>
      if tainted then Config.freeColor ⟨serial, .sample glyph (x - b.dstX) (y - b.dstY)⟩ else col
  else none

section

variable {p : Params} {dc : BitVec 16} {b : Sprite} {idx : Int → Int → Color} {tainted : Bool} {serial glyph : Nat}
  {x y : Int}

theorem Sprite.covers_of_pixelColor (h : b.pixelColor dc idx tainted serial glyph x y ≠ none) : b.Covers x y := by
  by_contra hc
  exact h (if_neg hc)

/-- The window's pixels are the canvas pixels that the sprite covers (R151). -/
theorem Sprite.mem_window_iff_covers (h : InCanvas p x y) : (x - b.dstX, y - b.dstY) ∈ b.window p ↔ b.Covers x y := by
  rw [Sprite.mem_window_iff, add_sub_cancel, add_sub_cancel]
  exact ⟨fun ⟨hx0, hx1, hy0, hy1, _⟩ => ⟨hx0, hx1, hy0, hy1⟩, fun ⟨hx0, hx1, hy0, hy1⟩ => ⟨hx0, hx1, hy0, hy1, h⟩⟩

/-- The sampler's writes are the canvas pixels that have a color, each with that color. -/
theorem Sprite.mem_writes_iff_pixelColor {c : Color} (h : InCanvas p x y) :
    ⟨c, x, y⟩ ∈ b.writes p dc idx tainted serial glyph ↔ b.pixelColor dc idx tainted serial glyph x y = some c := by
  rw [Sprite.mem_writes, Sprite.mem_window_iff_covers h, Sprite.pixelColor]
  by_cases hc : b.Covers x y
  · rw [if_pos hc, and_iff_right hc, Option.map_eq_some_iff]
    simp only [eq_comm (a := c)]
  · rw [if_neg hc]
    exact iff_of_false (fun h => hc h.1) nofun

end

/-- The sampler paints the pixels that have a color (R153, R155). -/
theorem Sprite.paint_paints {s : State} (hs : s.Ready) (b : Sprite) (dc : BitVec 16) (idx : Int → Int → Color)
    (tainted : Bool) (serial glyph : Nat) :
    Paints s (s.paint (b.writes s.params dc idx tainted serial glyph)) (b.pixelColor dc idx tainted serial glyph) :=
  paint_paints_of_mem hs Sprite.writes_inCanvas fun _ _ _ hxy => Sprite.mem_writes_iff_pixelColor hxy

/-- BLIT completes, and paints what the sampler paints, whatever it samples (R150; notes/assumptions/7.md). -/
theorem exec_blit_paints {s : State} (hs : s.Ready) {bpp2 flipX flipY rotate : Bool} {b : Sprite}
    (hb : b = blitSprite s bpp2 flipX flipY rotate) :
    ∃ t, exec (.blit bpp2 flipX flipY rotate) s = .next t ∧
      Paints s.latch t (b.pixelColor s.drawColors (b.sample s.latch s.latch.draws 0)
        (b.samplesFramebuffer s.params) s.latch.draws 0) := by
  subst hb
  exact ⟨_, rfl, Sprite.paint_paints (s := s.latch) hs _ _ _ _ _ _⟩

/-! ## Port accesses -/

/-- An access that is not 32 bits wide, or not aligned, names no register (R197). -/
theorem portAccess_eq_none {p : Params} {addr bytes : Nat}
    (h : bytes ≠ 4 ∨ (p.portBase ≤ addr ∧ (addr - p.portBase) % 4 ≠ 0)) : portAccess p addr bytes = none := by
  obtain hwidth | ⟨hbase, halign⟩ := h
  · simp [portAccess, hwidth]
  · simp [portAccess, portReg, hbase, halign]

/-- A port access that names no register has no transition (R197). -/
theorem act_port_refused {s : State} {addr bytes : Nat} (h : portAccess s.params addr bytes = none) :
    (∀ w, act (.portWrite addr bytes w) s = .refused .portAccess) ∧
      act (.portRead addr bytes) s = .refused .portAccess := by
  simp only [act, h, implies_true, and_self]

/-- A word that decodes runs its command, with the word in `CMD` (R62). -/
theorem issue_of_decode {w : Word} {i : Instr} (h : decode w = .ok i) (s : State) : issue w s = exec i (s.setCmd w) := by
  simp only [issue, h]

/-! ## The statements -/

/-- Settles O44: the sampler's pixels, with the free colors of a blit that reads framebuffer bytes. -/
theorem blitFromTheFramebufferPaintsFreeColors : Obligations.BlitFromTheFramebufferPaintsFreeColors := by
  unfold Obligations.BlitFromTheFramebufferPaintsFreeColors
  intro bpp2 flipX flipY rotate s b hs hb htainted
  have h := exec_blit_paints hs hb
  rw [htainted] at h
  exact h

/-- Settles O45: a pixel that has a color is one that the sprite covers. -/
theorem blitPaintsOnlyItsWindow : Obligations.BlitPaintsOnlyItsWindow := by
  unfold Obligations.BlitPaintsOnlyItsWindow
  intro bpp2 flipX flipY rotate s b hs hb
  obtain ⟨t, hexec, hpaints⟩ := exec_blit_paints hs hb
  exact ⟨t, _, hexec, hpaints, fun _ _ => Sprite.covers_of_pixelColor⟩

/-- Settles O46: the statement's bit index and address are the sampler's, and the stored byte's field is the sample. -/
theorem sampleIsTheMostSignificantFirstField : Obligations.SampleIsTheMostSignificantFirstField := by
  unfold Obligations.SampleIsTheMostSignificantFirstField
  intro s b serial glyph c r sx sy bi a hxy hbi ha h0 hlt hfb
  obtain rfl : bi = b.bitIndex s.params c r := by rw [hbi, Sprite.bitIndex, ← hxy]
  obtain rfl : a = b.byteAddr s.params c r := by rw [ha, Sprite.byteAddr_eq]
  rw [Sprite.sample_of_stored h0 hlt hfb, sampleField_toNat]

/-- Settles O4: offset 0 of the port is `CMD`, and a write to it issues the word. -/
theorem stepRunsTheDecodedCommand : Obligations.StepRunsTheDecodedCommand := by
  unfold Obligations.StepRunsTheDecodedCommand
  intro s w i rest hp hpend hdecode _
  have hcmd : portReg 0 = some .cmd := by decide
  exact (step_portWrite hp hcmd hpend).trans (issue_of_decode hdecode _)

/-- Settles O52: such an access names no register, and the step is that access. -/
theorem unalignedPortAccessIsRefused : Obligations.UnalignedPortAccessIsRefused := by
  unfold Obligations.UnalignedPortAccessIsRefused
  intro s addr bytes w rest hp hbad hpend
  obtain ⟨hwrite, hread⟩ := act_port_refused (s := s.setPending rest) (portAccess_eq_none hbad)
  obtain hpend | hpend := hpend
  · exact (step_eq_act hp hpend).trans (hwrite w)
  · exact (step_eq_act hp hpend).trans hread

end Sys2Proof.Machine

/-! PROOFS. The command word: its fields as numbers, what the decoder takes and rejects, and that the decoder and the
encoder are inverse. -/

namespace Sys2Proof

/-! ## The fields of a word -/

section

variable (w : Word)

theorem cmdOp_toNat : (cmdOp w).toNat = w.toNat % 16 := by
  simp [cmdOp]

theorem cmdFlags_toNat : (cmdFlags w).toNat = w.toNat / 16 % 16 := by
  simp [cmdFlags, Nat.shiftRight_eq_div_pow]

theorem cmdColor_toNat : (cmdColor w).toNat = w.toNat / 256 % 4 := by
  simp [cmdColor, Nat.shiftRight_eq_div_pow]

theorem cmdResv_toNat : (cmdResv w).toNat = w.toNat / 1024 := by
  rw [cmdResv, BitVec.extractLsb'_toNat, Nat.shiftRight_eq_div_pow]
  exact Nat.mod_eq_of_lt (by omega)

end

/-! ## A word from its fields -/

/-- The value of two bit strings, the high one first. -/
theorem toNat_append_eq_add {m n : Nat} (hi : BitVec m) (lo : BitVec n) :
    (hi ++ lo).toNat = hi.toNat * 2 ^ n + lo.toNat := by
  rw [BitVec.toNat_append, ← Nat.shiftLeft_add_eq_or_of_lt lo.isLt, Nat.shiftLeft_eq]

section

variable (color : Color) (flags op : BitVec 4)

theorem cmdWord_toNat : (cmdWord color flags op).toNat = 256 * color.toNat + 16 * flags.toNat + op.toNat := by
  simp only [cmdWord, BitVec.toNat_cast, toNat_append_eq_add, BitVec.toNat_ofNat]
  omega

@[simp] theorem cmdOp_cmdWord : cmdOp (cmdWord color flags op) = op := by
  rw [← BitVec.toNat_inj, cmdOp_toNat, cmdWord_toNat]
  omega

@[simp] theorem cmdFlags_cmdWord : cmdFlags (cmdWord color flags op) = flags := by
  rw [← BitVec.toNat_inj, cmdFlags_toNat, cmdWord_toNat]
  omega

@[simp] theorem cmdColor_cmdWord : cmdColor (cmdWord color flags op) = color := by
  rw [← BitVec.toNat_inj, cmdColor_toNat, cmdWord_toNat]
  omega

@[simp] theorem cmdResv_cmdWord : cmdResv (cmdWord color flags op) = 0 := by
  rw [← BitVec.toNat_inj, cmdResv_toNat, cmdWord_toNat]
  exact Nat.div_eq_of_lt (by omega)

end

/-- A word whose reserved bits are 0 is the word of its other fields (R61). -/
theorem cmdWord_fields {w : Word} (h : cmdResv w = 0) : cmdWord (cmdColor w) (cmdFlags w) (cmdOp w) = w := by
  have hresv : w.toNat / 1024 = 0 := (cmdResv_toNat w).symm.trans (congrArg BitVec.toNat h)
  rw [← BitVec.toNat_inj, cmdWord_toNat, cmdColor_toNat, cmdFlags_toNat, cmdOp_toNat]
  omega

/-- BLIT with the mode bits that `FLAGS` holds (R64). -/
def blitOfFlags (f : BitVec 4) : Instr := .blit (f.getLsbD 0) (f.getLsbD 1) (f.getLsbD 2) (f.getLsbD 3)

theorem encode_blitOfFlags (f : BitVec 4) : encode (blitOfFlags f) = cmdWord 0 f 0xB := by
  have hbits : BitVec.ofBool (f.getLsbD 3) ++ BitVec.ofBool (f.getLsbD 2) ++ BitVec.ofBool (f.getLsbD 1) ++
      BitVec.ofBool (f.getLsbD 0) = f := by revert f; decide
  rw [blitOfFlags, encode, hbits]

theorem blitOfFlags_append (bpp2 flipX flipY rotate : Bool) :
    blitOfFlags (BitVec.ofBool rotate ++ BitVec.ofBool flipY ++ BitVec.ofBool flipX ++ BitVec.ofBool bpp2) =
      .blit bpp2 flipX flipY rotate := by
  revert bpp2 flipX flipY rotate; decide

/-! ## What the decoder takes -/

section

variable {ε α : Type} {p : Prop} [Decidable p] {e : ε} {x : Except ε α}

/-- A check before a decoder: the word must pass it and then be taken. -/
theorem ite_error_eq_ok_iff {a : α} : (if p then .error e else x) = .ok a ↔ ¬ p ∧ x = .ok a := by
  by_cases h : p <;> simp [h]

/-- A check before a decoder: the word is rejected by it or after it. -/
theorem exists_ite_error_eq_error_iff :
    (∃ e', (if p then .error e else x) = .error e') ↔ p ∨ ∃ e', x = .error e' := by
  by_cases h : p <;> simp [h]

end

section

variable {w : Word} {j : Instr}

/-- A command that takes neither `COLOR` nor `FLAGS` asks for both to be 0 (R66). -/
theorem decodePlain_eq_ok_iff {i : Instr} : decodePlain w i = .ok j ↔ cmdFlags w = 0 ∧ cmdColor w = 0 ∧ i = j := by
  simp only [decodePlain, ite_error_eq_ok_iff, not_not, Except.ok.injEq]

/-- A command that takes `COLOR` asks for `FLAGS` to be 0 (R66). -/
theorem decodeColored_eq_ok_iff {i : Color → Instr} :
    decodeColored w i = .ok j ↔ cmdFlags w = 0 ∧ i (cmdColor w) = j := by
  simp only [decodeColored, ite_error_eq_ok_iff, not_not, Except.ok.injEq]

/-- BLIT takes all of `FLAGS` and asks for `COLOR` to be 0 (R64, R66). -/
theorem decodeBlit_eq_ok_iff : decodeBlit w = .ok j ↔ cmdColor w = 0 ∧ blitOfFlags (cmdFlags w) = j := by
  have hbits : blitOfFlags (cmdFlags w) = .blit (w.getLsbD 4) (w.getLsbD 5) (w.getLsbD 6) (w.getLsbD 7) := by
    simp [blitOfFlags, cmdFlags]
  simp only [decodeBlit, ite_error_eq_ok_iff, not_not, Except.ok.injEq, hbits]

end

/-! ## The decoder and the encoder are inverse -/

/-- The word of a command decodes to that command. -/
theorem decode_encode (i : Instr) : decode (encode i) = .ok i := by
  cases i with
  | writeU c => simp [encode, decode, decodeColored_eq_ok_iff]
  | writeC c => simp [encode, decode, decodeColored_eq_ok_iff]
  | fillRow c => simp [encode, decode, decodeColored_eq_ok_iff]
  | blit bpp2 flipX flipY rotate => simp [encode, decode, decodeBlit_eq_ok_iff, blitOfFlags_append]
  | _ => simp [encode, decode, decodePlain_eq_ok_iff]

section

variable {w : Word} {j : Instr} {op : Nat}

/-- A word with opcode `op` whose reserved bits are 0 (R61). -/
theorem cmdWord_fields_of_op (hresv : cmdResv w = 0) (hop : (cmdOp w).toNat = op) :
    cmdWord (cmdColor w) (cmdFlags w) (BitVec.ofNat 4 op) = w := by
  rw [← hop, BitVec.ofNat_toNat, BitVec.setWidth_eq, cmdWord_fields hresv]

theorem encode_of_decodePlain {i : Instr} (hi : encode i = cmdWord 0 0 (BitVec.ofNat 4 op)) (hresv : cmdResv w = 0)
    (hop : (cmdOp w).toNat = op) (h : decodePlain w i = .ok j) : encode j = w := by
  obtain ⟨hflags, hcolor, rfl⟩ := decodePlain_eq_ok_iff.1 h
  rw [hi, ← cmdWord_fields_of_op hresv hop, hflags, hcolor]

theorem encode_of_decodeColored {i : Color → Instr} (hi : ∀ c, encode (i c) = cmdWord c 0 (BitVec.ofNat 4 op))
    (hresv : cmdResv w = 0) (hop : (cmdOp w).toNat = op) (h : decodeColored w i = .ok j) : encode j = w := by
  obtain ⟨hflags, rfl⟩ := decodeColored_eq_ok_iff.1 h
  rw [hi, ← hflags, cmdWord_fields_of_op hresv hop]

theorem encode_of_decodeBlit (hresv : cmdResv w = 0) (hop : (cmdOp w).toNat = 0xB) (h : decodeBlit w = .ok j) :
    encode j = w := by
  obtain ⟨hcolor, rfl⟩ := decodeBlit_eq_ok_iff.1 h
  rw [encode_blitOfFlags, ← hcolor]
  exact cmdWord_fields_of_op hresv hop

/-- A word that decodes is the word of the command it decodes to: one case for each opcode of R63. -/
theorem encode_of_decode (h : decode w = .ok j) : encode j = w := by
  obtain ⟨hresv, h⟩ := ite_error_eq_ok_iff.1 h
  rw [not_not] at hresv
  split at h
  case h_2 hop | h_3 hop | h_4 hop => exact encode_of_decodeColored (fun _ => rfl) hresv hop h
  case h_11 hop => exact encode_of_decodeBlit hresv hop h
  case h_12 => exact nomatch h
  all_goals exact encode_of_decodePlain rfl hresv ‹_› h

end

/-! ## What the decoder rejects -/

section

variable {w : Word}

theorem cmdFlags_ne_zero_iff : cmdFlags w ≠ 0 ↔ w.toNat / 16 % 16 ≠ 0 := by
  rw [← cmdFlags_toNat]
  exact BitVec.toNat_inj.symm.not

theorem cmdColor_ne_zero_iff : cmdColor w ≠ 0 ↔ w.toNat / 256 % 4 ≠ 0 := by
  rw [← cmdColor_toNat]
  exact BitVec.toNat_inj.symm.not

theorem cmdResv_ne_zero_iff : cmdResv w ≠ 0 ↔ w.toNat / 1024 ≠ 0 := by
  rw [← cmdResv_toNat]
  exact BitVec.toNat_inj.symm.not

theorem decodePlain_rejects_iff {i : Instr} :
    (∃ e, decodePlain w i = .error e) ↔ w.toNat / 16 % 16 ≠ 0 ∨ w.toNat / 256 % 4 ≠ 0 := by
  simp only [decodePlain, exists_ite_error_eq_error_iff, cmdFlags_ne_zero_iff, cmdColor_ne_zero_iff, reduceCtorEq,
    exists_false, or_false]

theorem decodeColored_rejects_iff {i : Color → Instr} :
    (∃ e, decodeColored w i = .error e) ↔ w.toNat / 16 % 16 ≠ 0 := by
  simp only [decodeColored, exists_ite_error_eq_error_iff, cmdFlags_ne_zero_iff, reduceCtorEq, exists_false, or_false]

theorem decodeBlit_rejects_iff : (∃ e, decodeBlit w = .error e) ↔ w.toNat / 256 % 4 ≠ 0 := by
  simp only [decodeBlit, exists_ite_error_eq_error_iff, cmdColor_ne_zero_iff, reduceCtorEq, exists_false, or_false]

end

/-! ## The statements -/

/-- Settles O1, by the cases of the command and by the decoder's branches. -/
theorem decodeAndEncodeAreInverse : Obligations.DecodeAndEncodeAreInverse := by
  unfold Obligations.DecodeAndEncodeAreInverse
  exact ⟨fun i _ => decode_encode i, fun _ _ => encode_of_decode⟩

/-- Settles O2: the check of `RESV` comes first, and then each opcode has its own checks. -/
theorem decodeRejectsExactlyIllegalWords : Obligations.DecodeRejectsExactlyIllegalWords := by
  unfold Obligations.DecodeRejectsExactlyIllegalWords
  intro w
  rw [decode, exists_ite_error_eq_error_iff, cmdResv_ne_zero_iff]
  have hop := cmdOp_toNat w
  split
  case h_2 | h_3 | h_4 => rw [decodeColored_rejects_iff]; omega
  case h_11 => rw [decodeBlit_rejects_iff]; omega
  case h_12 =>
    simp only [imp_false] at *
    simp only [Except.error.injEq, exists_eq', or_true, true_iff]
    omega
  all_goals rw [decodePlain_rejects_iff]; omega

/-- Settles O3: the decoder evaluated at the five words. -/
theorem writtenOutWordsDecode : Obligations.WrittenOutWordsDecode := by
  unfold Obligations.WrittenOutWordsDecode
  exact ⟨rfl, rfl, rfl, rfl, rfl⟩

end Sys2Proof

/-! PROOFS. The register map of the command port, and the run of an assembled command. -/

namespace Sys2Proof.Machine

open Sys2Proof

/-! ## The register map -/

/-- No register at an unaligned offset, and none above `0x3C` (R60). -/
theorem portReg_none {off : Nat} (h : off % 4 ≠ 0 ∨ 0x3C < off) : portReg off = none := by
  by_cases halign : off % 4 = 0
  · have habove : 0x3C < off := by omega
    simp [portReg, halign, show off ≠ 0 by omega, show off ≠ 4 by omega, show ¬ off ≤ 0x24 by omega,
      show ¬ off ≤ 0x3C by omega]
  · exact if_pos halign

/-! ## A run of steps -/

/-- A run of one step is that step. -/
theorem run_one (s : State) : Host.Core.run Sys2Proof.core 1 s = step s := by
  simp only [Host.Core.run, show Sys2Proof.core.step s = step s from rfl]
  cases step s <;> rfl

/-- A run whose first step goes on to `t` goes on from `t`. -/
theorem run_succ_of_step {s t : State} (h : step s = .next t) (n : Nat) :
    Host.Core.run Sys2Proof.core (n + 1) s = Host.Core.run Sys2Proof.core n t := by
  simp only [Host.Core.run, show Sys2Proof.core.step s = .next t from h]

/-! ## An assembled command -/

theorem operandCount_le (i : Instr) : operandCount i ≤ 8 := by
  cases i <;> simp [operandCount]

/-- The register `ARGk` at its offset. -/
theorem portReg_ofNat {k : Nat} (hk : k < 8) : portReg (0x08 + 4 * k) = some (.arg (Fin.ofNat 8 k)) := by
  have hmod : (Fin.ofNat 8 k).val = k := Nat.mod_eq_of_lt hk
  simpa only [hmod] using portReg_arg (Fin.ofNat 8 k)

/-- The operands' port writes load the argument registers from `ARGk` on, one step each (R70). -/
theorem run_argWrites (rest : List HostAction) (n : Nat) (ops : List Int) :
    ∀ (k : Nat) (s : State), s.params.WF → k + ops.length ≤ 8 → s.pending = argWrites s.params k ops ++ rest →
      Host.Core.run Sys2Proof.core (ops.length + n) s =
        Host.Core.run Sys2Proof.core n ((s.setPending rest).setArgs (loadArgs s.args k ops)) := by
  induction ops with
  | nil =>
    intro k s _ _ hpend
    obtain rfl : s.pending = rest := hpend
    rw [List.length_nil, Nat.zero_add]
    rfl
  | cons v vs ih =>
    intro k s hp hk hpend
    rw [List.length_cons] at hk
    rw [argWrites, List.cons_append, Nat.add_assoc] at hpend
    have hstep := step_portWrite hp (portReg_ofNat (by omega)) hpend
    rw [List.length_cons, Nat.add_right_comm, run_succ_of_step hstep]
    exact ih (k + 1) _ hp (by omega) rfl

/-- The host's write of a command's word to `CMD` runs the command (R62). -/
theorem step_write_encode {s : State} (hp : s.params.WF) {i : Instr} {rest : List HostAction}
    (h : s.pending = .portWrite s.params.portBase 4 (encode i) :: rest) :
    step s = exec i ((s.setPending rest).setCmd (encode i)) := by
  have hcmd : portReg 0 = some .cmd := rfl
  exact (step_portWrite hp hcmd h).trans (issue_of_decode (decode_encode i) _)

/-- Settles O49: one clause for each line of R60's table, and the offsets beside it. -/
theorem portRegisterMap : Obligations.PortRegisterMap := by
  unfold Obligations.PortRegisterMap
  exact ⟨rfl, rfl, portReg_arg, fun _ => portReg_reserved, fun _ => portReg_none⟩

/-- Settles O56: the operands' writes, and then the write of the command's word to `CMD`, which decodes to it. -/
theorem assembledCommandRuns : Obligations.AssembledCommandRuns := by
  unfold Obligations.AssembledCommandRuns
  intro s i ops hp hwf hpend
  have hlength : ops.length = operandCount i := by
    simp only [Stmt.wf, Bool.and_eq_true, beq_iff_eq] at hwf
    exact hwf.1
  have hle := operandCount_le i
  rw [run_argWrites _ 1 ops 0 s hp (by omega) hpend, run_one]
  refine step_write_encode (rest := []) ?_ ?_
  · exact hp
  · rfl

end Sys2Proof.Machine

/-! PROOFS. The Pixel Store: what CLEAR, WRITE_U and WRITE_C do to the framebuffer. -/

namespace Sys2Proof.Machine

open Sys2Proof

/-! ## CLEAR -/

theorem exec_clear (s : State) :
    exec .clear s = .next (s.setMem (fillBytes 0 s.params.fbBytes s.params.fbBase s.mem)) := rfl

/-- The four pixels of a 0 byte are 0 (R81). -/
theorem pix_of_read_eq_zero {p : Params} {m : Memory} {x y : Int} (h : m.read (pixelAddr p x y) = 0) :
    pix p m x y = 0 := by
  simp [pix, h]

/-- A canvas pixel's byte is one of those that CLEAR fills (R84). -/
theorem pix_fillFramebuffer_zero {p : Params} (hw : p.width % 4 = 0) {m : Memory} (hm : m.wf = true) {x y : Int}
    (hxy : InCanvas p x y) : pix p (fillBytes 0 p.fbBytes p.fbBase m) x y = 0 :=
  pix_of_read_eq_zero ((read_fillBytes hm _).trans (if_pos (pixelAddr_inFramebuffer hw hxy)))

/-! ## The clipped write -/

theorem pixelClipped_of_inCanvas {p : Params} {x y : Int} (h : InCanvas p x y) (c : Color) :
    pixelClipped p c x y = [⟨c, x, y⟩] := if_pos h

theorem pixelClipped_of_not_inCanvas {p : Params} {x y : Int} (h : ¬ InCanvas p x y) (c : Color) :
    pixelClipped p c x y = [] := if_neg h

@[simp] theorem State.paint_nil (s : State) : s.paint [] = s := rfl

/-- `PutPixelClipped` paints its pixel if that lies on the canvas, and nothing else (R83). -/
theorem paint_pixelClipped_paints {s : State} (hs : s.Ready) (c : Color) (x₀ y₀ : Int) :
    Paints s (s.paint (pixelClipped s.params c x₀ y₀)) (fun x y => if x = x₀ ∧ y = y₀ then some c else none) := by
  refine paint_paints_of_mem hs (fun w hw => ?_) (fun x y d hxy => ?_)
  · obtain ⟨hc, rfl⟩ := mem_pixelClipped.1 hw
    exact hc
  · simp only [mem_pixelClipped, PixelWrite.mk.injEq, Option.ite_none_right_eq_some, Option.some.injEq]
    constructor
    · rintro ⟨_, rfl, rfl, rfl⟩
      exact ⟨⟨rfl, rfl⟩, rfl⟩
    · rintro ⟨⟨rfl, rfl⟩, rfl⟩
      exact ⟨hxy, rfl, rfl, rfl⟩

/-! ## WRITE_C and WRITE_U -/

theorem exec_writeC (c : Color) (s : State) :
    exec (.writeC c) s = .next (s.paint (pixelClipped s.params c (sArg s 0) (sArg s 1))) := rfl

/-- On the canvas WRITE_U does what WRITE_C does: nothing is clipped there (R83, R85). -/
theorem exec_writeU_of_inCanvas {s : State} (h : InCanvas s.params (sArg s 0) (sArg s 1)) (c : Color) :
    exec (.writeU c) s = .next (s.paint (pixelClipped s.params c (sArg s 0) (sArg s 1))) := by
  rw [pixelClipped_of_inCanvas h]
  exact if_pos h

theorem exec_writeU_of_not_inCanvas {s : State} (h : ¬ InCanvas s.params (sArg s 0) (sArg s 1)) (c : Color) :
    exec (.writeU c) s = .next (s.raise .precond) := if_neg h

/-- WRITE_U over a framebuffer whose pixels are 0 leaves one pixel in its color (R87). -/
theorem exec_writeU_of_pixAt_zero {s : State} (hs : s.Ready) (hc : InCanvas s.params (sArg s 0) (sArg s 1))
    (hzero : ∀ x y, InCanvas s.params x y → s.pixAt x y = 0) (c : Color) :
    ∃ t, exec (.writeU c) s = .next t ∧
      ∀ x y, InCanvas s.params x y → t.pixAt x y = if x = sArg s 0 ∧ y = sArg s 1 then c else 0 := by
  obtain ⟨_, hpix, _⟩ := paint_pixelClipped_paints hs c (sArg s 0) (sArg s 1)
  refine ⟨_, exec_writeU_of_inCanvas hc c, fun x y hxy => (hpix x y hxy).trans ?_⟩
  simp only [hzero x y hxy]
  split_ifs <;> rfl

/-! ## The statements -/

/-- Settles O17: CLEAR is a fill of the framebuffer's bytes, and each canvas pixel lies in one of them. -/
theorem clearZeroesTheFramebuffer : Obligations.ClearZeroesTheFramebuffer := by
  unfold Obligations.ClearZeroesTheFramebuffer
  refine ⟨by decide, fun s ⟨⟨_, hwidth, _⟩, hwf⟩ => ⟨_, exec_clear s, rfl, ?_, ?_⟩⟩
  · exact read_fillBytes hwf
  · exact fun x y => pix_fillFramebuffer_zero hwidth hwf

/-- Settles O18: on the canvas WRITE_U is the clipped write. -/
theorem writeUPaintsItsPixel : Obligations.WriteUPaintsItsPixel := by
  unfold Obligations.WriteUPaintsItsPixel
  exact fun c _ hs hc => ⟨_, exec_writeU_of_inCanvas hc c, paint_pixelClipped_paints hs c _ _⟩

/-- Settles O20: WRITE_C is the clipped write, which is no write outside the canvas. -/
theorem writeCPaintsOrDoesNothing : Obligations.WriteCPaintsOrDoesNothing := by
  unfold Obligations.WriteCPaintsOrDoesNothing
  refine ⟨by decide, fun c s hs => ⟨_, exec_writeC c s, paint_pixelClipped_paints hs c _ _, fun hout => ?_⟩⟩
  rw [pixelClipped_of_not_inCanvas hout, State.paint_nil]

/-- Settles O21: WRITE_U finds CLEAR's state, in which every pixel is 0, and paints one pixel of it. -/
theorem clearThenWriteULeavesOnePixel : Obligations.ClearThenWriteULeavesOnePixel := by
  unfold Obligations.ClearThenWriteULeavesOnePixel
  intro c s ⟨hp, hwf⟩ hc
  have ⟨_, hwidth, _⟩ := hp
  obtain ⟨u, hu, hpix⟩ :=
    exec_writeU_of_pixAt_zero (s := s.setMem (fillBytes 0 s.params.fbBytes s.params.fbBase s.mem))
      ⟨hp, fillBytes_wf hwf⟩ hc (fun _ _ => pix_fillFramebuffer_zero hwidth hwf) c
  exact ⟨_, u, exec_clear s, hu, hpix⟩

/-- Settles O19: outside the canvas WRITE_U raises PRECOND, whose cause bit is bit 1 (R22, R171). -/
theorem writeUOutsideRaisesPrecond : Obligations.WriteUOutsideRaisesPrecond := by
  unfold Obligations.WriteUOutsideRaisesPrecond
  exact fun c _ hout => exec_writeU_of_not_inCanvas hout c

end Sys2Proof.Machine

/-! PROOFS. The Color Resolver: the colors of the transparent nibble 0 and of the nibble `n + 1`. -/

namespace Sys2Proof.Machine

open Sys2Proof

/-! ## The colors of a nibble -/

/-- The subtraction wraps at the nibble 0 (R11, R91). -/
@[simp] theorem rawColor_zero : rawColor 0 = 3 := by decide

/-- The nibble `n + 1` holds color `n`, and the colors repeat every four nibbles (R91). -/
theorem rawColor_ofNat_succ (n : Nat) : rawColor (BitVec.ofNat 4 (n + 1)) = BitVec.ofNat 2 n := by
  have hpred : BitVec.ofNat 4 (n + 1) - 1 = BitVec.ofNat 4 n := by
    rw [BitVec.ofNat_add]
    exact BitVec.add_sub_cancel _ 1
  rw [rawColor, hpred, BitVec.setWidth_ofNat_of_le (by decide)]

@[simp] theorem shapeColor_zero : shapeColor 0 = none := if_pos rfl

theorem shapeColor_of_ne_zero {n : Nibble} (hn : n ≠ 0) : shapeColor n = some (rawColor n) := if_neg hn

/-- The nibble 15 is no exception (R95). -/
theorem shapeColor_ofNat_succ {n : Nat} (hn : n < 15) :
    shapeColor (BitVec.ofNat 4 (n + 1)) = some (BitVec.ofNat 2 n) := by
  have hne : BitVec.ofNat 4 (n + 1) ≠ 0 := by bv_omega
  rw [shapeColor_of_ne_zero hne, rawColor_ofNat_succ]

/-! ## The rows of R91's table -/

theorem map_rawColor_range :
    (List.range 16).map (fun n => rawColor (BitVec.ofNat 4 n)) = 3 :: (List.range 15).map (BitVec.ofNat 2) := by
  rw [List.range_succ_eq_map, List.map_cons, List.map_map]
  exact congrArg₂ _ rawColor_zero (List.map_congr_left fun n _ => rawColor_ofNat_succ n)

theorem map_shapeColor_range :
    (List.range 16).map (fun n => shapeColor (BitVec.ofNat 4 n)) =
      none :: (List.range 15).map (fun n => some (BitVec.ofNat 2 n)) := by
  rw [List.range_succ_eq_map, List.map_cons, List.map_map]
  exact congrArg₂ _ shapeColor_zero (List.map_congr_left fun _ hn => shapeColor_ofNat_succ (List.mem_range.1 hn))

/-! ## The statement -/

/-- Settles O22: each row is its entry for the nibble 0, and then the colors 0 to 14 modulo 4. -/
theorem colorResolverTable : Obligations.ColorResolverTable := by
  unfold Obligations.ColorResolverTable
  rw [map_rawColor_range, map_shapeColor_range]
  exact ⟨rfl, rfl⟩

end Sys2Proof.Machine

/-! PROOFS. Spans, lines and rectangles: what FILL_ROW, HLINE, VLINE and RECT paint, and the span's fast path. -/

namespace Sys2Proof.Machine

open Sys2Proof

/-! ## Regions of one color -/

/-- Writes to exactly the canvas pixels of a region, in one color if there is one, paint the region. -/
theorem paint_region_paints {s : State} (hs : s.Ready) {ws : List PixelWrite} {region : Int → Int → Prop}
    [∀ x y, Decidable (region x y)] {color : Option Color}
    (h : ∀ w, w ∈ ws ↔ InCanvas s.params w.x w.y ∧ region w.x w.y ∧ color = some w.c) :
    Paints s (s.paint ws) (fun x y => if region x y then color else none) := by
  refine paint_paints_of_mem hs (fun w hw => ((h w).1 hw).1) (fun x y c hxy => ?_)
  rw [h, and_iff_right hxy, Option.ite_none_right_eq_some]

/-! ## FILL_ROW, HLINE and VLINE -/

theorem exec_fillRow_of_spanInCanvas {s : State} (h : SpanInCanvas s.params (sArg s 0) (sArg s 1) (sArg s 2))
    (c : Color) : exec (.fillRow c) s = .next (s.paint (span c (sArg s 0) (sArg s 1) (sArg s 2))) := if_pos h

theorem exec_fillRow_of_not_spanInCanvas {s : State}
    (h : ¬ SpanInCanvas s.params (sArg s 0) (sArg s 1) (sArg s 2)) (c : Color) :
    exec (.fillRow c) s = .next (s.raise .precond) := if_neg h

theorem exec_hline (s : State) :
    exec .hline s =
      .next (s.latch.paint (hlineWrites s.params s.drawColors (sArg s 0) (sArg s 1) (sArg s 2))) := rfl

theorem exec_vline (s : State) :
    exec .vline s =
      .next (s.latch.paint (vlineWrites s.params s.drawColors (sArg s 0) (sArg s 1) (sArg s 2))) := rfl

/-- A span inside the canvas paints its pixels (R100). -/
theorem paint_span_paints {s : State} (hs : s.Ready) {x₀ y₀ x₁ : Int} (h : SpanInCanvas s.params x₀ y₀ x₁)
    (c : Color) :
    Paints s (s.paint (span c x₀ y₀ x₁)) (fun x y => if x₀ ≤ x ∧ x < x₁ ∧ y = y₀ then some c else none) := by
  refine paint_region_paints hs fun w => ?_
  rw [mem_span, Option.some.injEq, eq_comm (a := c)]
  constructor
  · rintro ⟨hlo, hhi, hy, hc⟩
    exact ⟨by omega, ⟨hlo, hhi, hy⟩, hc⟩
  · rintro ⟨_, ⟨hlo, hhi, hy⟩, hc⟩
    exact ⟨hlo, hhi, hy, hc⟩

/-- HLINE's writes paint the canvas pixels of `[x₀, x₀ + len)` on its row in `ShapeColor(dc0)` (R103). -/
theorem paint_hlineWrites_paints {s : State} (hs : s.Ready) (dc : BitVec 16) (x₀ y₀ len : Int) :
    Paints s (s.paint (hlineWrites s.params dc x₀ y₀ len))
      (fun x y => if x₀ ≤ x ∧ x < x₀ + len ∧ y = y₀ then shapeColor (nib dc 0) else none) :=
  paint_region_paints hs fun w => by simp only [mem_hlineWrites, and_assoc]

/-- VLINE's writes paint the canvas pixels of rows `[y₀, y₀ + len)` in its column in `ShapeColor(dc0)` (R104). -/
theorem paint_vlineWrites_paints {s : State} (hs : s.Ready) (dc : BitVec 16) (x₀ y₀ len : Int) :
    Paints s (s.paint (vlineWrites s.params dc x₀ y₀ len))
      (fun x y => if x = x₀ ∧ y₀ ≤ y ∧ y < y₀ + len then shapeColor (nib dc 0) else none) :=
  paint_region_paints hs fun w => by simp only [mem_vlineWrites, and_assoc]

/-! ## RECT -/

theorem exec_rect (s : State) :
    exec .rect s =
      .next (s.latch.paint (rectWrites s.params (shapeColor (nib s.drawColors 0)) (shapeColor (nib s.drawColors 1))
        (sArg s 0) (sArg s 1) (sArg s 2) (sArg s 3))) := rfl

/-- The clamped bounds of the rectangle hold the pixel (R105). -/
abbrev InClamped (p : Params) (x y width height px py : Int) : Prop :=
  max 0 x ≤ px ∧ px < min (p.width : Int) (x + width) ∧ max 0 y ≤ py ∧ py < min (p.height : Int) (y + height)

/-- The pixel lies on a border line of the unclamped rectangle: `border(px, py)` of R106. -/
abbrev OnBorder (x y width height px py : Int) : Prop :=
  px = x ∨ px = x + width - 1 ∨ py = y ∨ py = y + height - 1

/-- The last color of writes that all have one color. -/
theorem lastColor_eq_ite {ws : List PixelWrite} {c : Color} {x y : Int} {P : Prop} [Decidable P]
    (h : ∀ d, ⟨d, x, y⟩ ∈ ws ↔ P ∧ d = c) : lastColor ws x y = if P then some c else none := by
  split_ifs with hP
  · exact lastColor_eq_some ⟨c, (h c).2 ⟨hP, rfl⟩⟩ fun d hd => ((h d).1 hd).2
  · refine lastColor_eq_none.2 ?_
    rintro ⟨d, _, _⟩ hw ⟨rfl, rfl⟩
    exact hP ((h d).1 hw).1

/-- The color `d` where `Q` holds within `P`, over the color `c` in the rest of `P`. -/
theorem ite_and_or_ite_and_not (P Q : Prop) [Decidable P] [Decidable Q] (c d : Color) :
    (if P ∧ Q then some d else none).or (if P ∧ ¬ Q then some c else none) =
      if P then (if Q then some d else some c) else none := by
  by_cases hP : P <;> by_cases hQ : Q <;> simp [hP, hQ]

theorem lastColor_fillWrites (c : Color) (fx0 fy0 fx1 fy1 px py : Int) :
    lastColor (fillWrites c fx0 fy0 fx1 fy1) px py =
      if fx0 ≤ px ∧ px < fx1 ∧ fy0 ≤ py ∧ py < fy1 then some c else none :=
  lastColor_eq_ite fun d => by simp only [mem_fillWrites, and_assoc]

section

variable {p : Params} {c : Color} {x y width height px py : Int}

/-- The stroke's four lines cover exactly the border pixels in the clamped bounds (R106). -/
theorem mem_strokeWrites_iff (hx : max 0 x < min (p.width : Int) (x + width))
    (hy : max 0 y < min (p.height : Int) (y + height)) {w : PixelWrite} :
    w ∈ strokeWrites p c x y width height (max 0 x) (max 0 y) (min (p.width : Int) (x + width)) ↔
      (InClamped p x y width height w.x w.y ∧ OnBorder x y width height w.x w.y) ∧ w.c = c := by
  constructor
  · intro hw
    obtain ⟨hcanvas, hxlo, hxhi, hylo, hyhi, hc, hborder⟩ := mem_strokeWrites hw hx hy
    exact ⟨⟨by omega, hborder⟩, hc⟩
  · rintro ⟨⟨hin, hborder⟩, hc⟩
    simp only [strokeWrites, List.mem_append, List.mem_ite_nil_right, mem_column, mem_span, hc, and_true]
    by_cases hbottom : w.y = y + height - 1
    · right; omega
    · left; omega

theorem lastColor_strokeWrites (hx : max 0 x < min (p.width : Int) (x + width))
    (hy : max 0 y < min (p.height : Int) (y + height)) :
    lastColor (strokeWrites p c x y width height (max 0 x) (max 0 y) (min (p.width : Int) (x + width))) px py =
      if InClamped p x y width height px py ∧ OnBorder x y width height px py then some c else none :=
  lastColor_eq_ite fun _ => mem_strokeWrites_iff hx hy

/-- The fill under a stroke covers the clamped bounds but for the border (R105). -/
theorem inset_iff :
    (max 0 (x + 1) ≤ px ∧ px < min (p.width : Int) (x + width - 1) ∧
      max 0 (y + 1) ≤ py ∧ py < min (p.height : Int) (y + height - 1)) ↔
      InClamped p x y width height px py ∧ ¬ OnBorder x y width height px py := by
  omega

/-- The last of RECT's ordered writes to a pixel is the stroke on the border and the fill elsewhere: the fill is inset
from the border when there is a stroke, and covers the clamped bounds when there is none (R106). -/
theorem lastColor_rectWrites (f st : Option Color) :
    lastColor (rectWrites p f st x y width height) px py =
      if InClamped p x y width height px py then
        (if st ≠ none ∧ OnBorder x y width height px py then st else f)
      else none := by
  simp only [rectWrites]
  by_cases hempty : max 0 x ≥ min (p.width : Int) (x + width) ∨ max 0 y ≥ min (p.height : Int) (y + height)
  · rw [if_pos hempty, if_neg (by omega), lastColor_nil]
  · have hx : max 0 x < min (p.width : Int) (x + width) := by omega
    have hy : max 0 y < min (p.height : Int) (y + height) := by omega
    rw [if_neg hempty, lastColor_append]
    cases st with
    | none =>
      cases f with
      | none => simp
      | some c =>
        rw [lastColor_nil, Option.none_or, lastColor_fillWrites]
        simp only [ne_eq, not_true_eq_false, false_and, if_false]
    | some d =>
      simp only [lastColor_strokeWrites hx hy, ne_eq, reduceCtorEq, not_false_eq_true, true_and]
      cases f with
      | none => rw [lastColor_nil, Option.or_none, ite_and]
      | some c => rw [lastColor_fillWrites, if_congr inset_iff rfl rfl, ite_and_or_ite_and_not]

end

/-! ## Parts of a span -/

theorem intRange_append {lo mid hi : Int} (h : lo ≤ mid) (h' : mid ≤ hi) :
    intRange lo hi = intRange lo mid ++ intRange mid hi := by
  obtain ⟨i, rfl⟩ := Int.le.dest h
  obtain ⟨j, rfl⟩ := Int.le.dest h'
  have hlen : (lo + i + j - lo).toNat = i + j := by omega
  rw [intRange, hlen, List.range_add]
  simp [intRange, add_assoc]

theorem span_append (c : Color) (y : Int) {x₀ x₁ x₂ : Int} (h : x₀ ≤ x₁) (h' : x₁ ≤ x₂) :
    span c x₀ y x₂ = span c x₀ y x₁ ++ span c x₁ y x₂ := by
  simp only [span, intRange_append h h', List.map_append]

@[simp] theorem span_self (c : Color) (x y : Int) : span c x y x = [] := by simp [span, intRange]

theorem span_four (c : Color) (x y : Int) :
    span c x y (x + 4) = [⟨c, x, y⟩, ⟨c, x + 1, y⟩, ⟨c, x + 2, y⟩, ⟨c, x + 3, y⟩] := by
  simp [span, intRange, List.range_succ]

/-! ## The four pixels of a byte -/

/-- A byte is its four pixels, the one at shift 0 lowest (R26). -/
theorem append_pixels (b : Byte) :
    ((b >>> 6).setWidth 2 ++ (b >>> 4).setWidth 2 ++ (b >>> 2).setWidth 2 ++ (b >>> 0).setWidth 2 : Byte) = b := by
  refine BitVec.eq_of_toNat_eq ?_
  simp only [toNat_append_eq_add, BitVec.toNat_setWidth, BitVec.toNat_ushiftRight, Nat.shiftRight_eq_div_pow]
  omega

/-- A byte whose four pixels have one color is the replicated byte (R100). -/
theorem eq_replicated {b : Byte} {c : Color}
    (h : ∀ k, k = 0 ∨ k = 2 ∨ k = 4 ∨ k = 6 → (b >>> k).setWidth 2 = c) : b = replicated c := by
  rw [← append_pixels b, h 6 (by simp), h 4 (by simp), h 2 (by simp), h 0 (by simp), replicated]

/-- One color put at each of the four shifts leaves the replicated byte, whatever the byte held. -/
theorem insertColor_four (b : Byte) (c : Color) :
    insertColor (insertColor (insertColor (insertColor b c 0) c 2) c 4) c 6 = replicated c := by
  refine eq_replicated ?_
  rintro k (rfl | rfl | rfl | rfl) <;> simp (disch := decide) only [insertColor_same, insertColor_other]

/-- The later of two writes to one byte stands. -/
theorem Memory.write_write {m : Memory} (hm : m.wf = true) (a : Nat) (v w : Byte) :
    (m.write a v).write a w = m.write a w := by
  refine Memory.ext_read (write_wf (write_wf hm a v) a w) (write_wf hm a w) fun b => ?_
  rw [read_write (write_wf hm a v), read_write hm, read_write hm]
  split_ifs <;> rfl

section

variable {p : Params} {m : Memory} {x y : Int}

/-- The pixels `4k` to `4k + 3` of a row lie in one byte (R80). -/
theorem pixelAddr_add_of_dvd (hw : p.width % 4 = 0) (hx : 4 ∣ x) {i : Int} (h0 : 0 ≤ i) (h4 : i < 4) :
    pixelAddr p (x + i) y = pixelAddr p x y := by
  simp only [pixelAddr, fbIndex_split hw]
  omega

/-- The next four pixels of a row lie in the next byte (R80). -/
theorem pixelAddr_add_four (hw : p.width % 4 = 0) (hx : 0 ≤ x) (hy : 0 ≤ y) :
    pixelAddr p (x + 4) y = pixelAddr p x y + 1 := by
  have hrow : 0 ≤ ((p.width / 4 : Nat) : Int) * y := Int.mul_nonneg (by omega) hy
  simp only [pixelAddr, fbIndex_split hw]
  omega

theorem putPixel_of_dvd (hx : 4 ∣ x) (c : Color) :
    putPixel p m c x y = m.write (pixelAddr p x y) (insertColor (m.read (pixelAddr p x y)) c 0) := by
  rw [putPixel, fbShift_eq, Int.emod_eq_zero_of_dvd hx]
  rfl

/-- `PutPixel` of pixel `i` of a byte just written (R82). -/
theorem putPixel_write (hw : p.width % 4 = 0) (hm : m.wf = true) (hx : 4 ∣ x) (v : Byte) (c : Color) {i : Int}
    (h0 : 0 ≤ i) (h4 : i < 4) :
    putPixel p (m.write (pixelAddr p x y) v) c (x + i) y =
      m.write (pixelAddr p x y) (insertColor v c (2 * i.toNat)) := by
  have hshift : fbShift (x + i) = 2 * i.toNat := by rw [fbShift_eq]; omega
  rw [putPixel, pixelAddr_add_of_dvd hw hx h0 h4, Memory.read_write_same hm, Memory.write_write hm, hshift]

/-- The four pixels of a byte in one color are a write of the replicated byte. -/
theorem putPixels_span_four (hw : p.width % 4 = 0) (hm : m.wf = true) (hx : 4 ∣ x) (c : Color) :
    putPixels p m (span c x y (x + 4)) = m.write (pixelAddr p x y) (replicated c) := by
  simp only [span_four, putPixels_cons, putPixels_nil]
  rw [putPixel_of_dvd hx, putPixel_write hw hm hx _ _ (by decide) (by decide),
    putPixel_write hw hm hx _ _ (by decide) (by decide), putPixel_write hw hm hx _ _ (by decide) (by decide)]
  exact congrArg _ (insertColor_four _ c)

/-- The aligned middle of a span is a fill of whole bytes (R100). -/
theorem putPixels_span_bytes (hw : p.width % 4 = 0) (hy : 0 ≤ y) (c : Color) (n : Nat) (hm : m.wf = true)
    (hdvd : 4 ∣ x) (hx : 0 ≤ x) :
    putPixels p m (span c x y (x + 4 * n)) = fillBytes (replicated c) n (pixelAddr p x y) m := by
  induction n generalizing x m with
  | zero => simp [fillBytes]
  | succ n ih =>
    have hend : x + 4 * (n + 1 : Nat) = x + 4 + 4 * n := by omega
    rw [hend, span_append c y (x₁ := x + 4) (by omega) (by omega), putPixels_append, putPixels_span_four hw hm hdvd,
      ih (Memory.write_wf hm _ _) (by omega) (by omega), pixelAddr_add_four hw hx hy, fillBytes]

end

/-! ## The statements -/

/-- Settles O23: with its precondition FILL_ROW is the span of R100. -/
theorem fillRowPaintsItsSpan : Obligations.FillRowPaintsItsSpan := by
  unfold Obligations.FillRowPaintsItsSpan
  exact fun c _ hs hspan => ⟨_, exec_fillRow_of_spanInCanvas hspan c, paint_span_paints hs hspan c⟩

/-- Settles O25: both ends of the fast path are spans already, and between them it has no bytes to fill, or starts on a
byte boundary and fills whole bytes. -/
theorem spanFastPathEqualsPixelLoop : Obligations.SpanFastPathEqualsPixelLoop := by
  unfold Obligations.SpanFastPathEqualsPixelLoop
  intro p m c x₀ y x₁ ⟨_, hw, _⟩ hm ⟨hx₀, hlt, _, hy, _⟩
  simp only [spanFast]
  set left := min x₁ ((x₀ + 3) / 4 * 4)
  set right := max left (x₁ / 4 * 4)
  have hmiddle : ∀ {m' : Memory}, m'.wf = true →
      fillBytes (replicated c) ((right - left) / 4).toNat (pixelAddr p left y) m' =
        putPixels p m' (span c left y right) := by
    intro m' hm'
    obtain hempty | ⟨haligned, hbytes⟩ :
        right = left ∨ 4 ∣ left ∧ right = left + 4 * ((right - left) / 4).toNat := by omega
    · simp [hempty, fillBytes]
    · rw [← putPixels_span_bytes hw hy c _ hm' haligned (by omega), ← hbytes]
  rw [hmiddle (putPixels_wf hm _), ← putPixels_append, ← putPixels_append, ← span_append, ← span_append] <;> omega

/-- Settles O26: HLINE latches the draw colors and makes its writes under them. -/
theorem hlinePaintsItsRow : Obligations.HlinePaintsItsRow := by
  unfold Obligations.HlinePaintsItsRow
  exact ⟨by decide, fun s hs => ⟨_, exec_hline s, paint_hlineWrites_paints (s := s.latch) hs _ _ _ _⟩⟩

/-- Settles O27: VLINE latches the draw colors and makes its writes under them. -/
theorem vlinePaintsItsColumn : Obligations.VlinePaintsItsColumn := by
  unfold Obligations.VlinePaintsItsColumn
  exact ⟨by decide, fun s hs => ⟨_, exec_vline s, paint_vlineWrites_paints (s := s.latch) hs _ _ _ _⟩⟩

/-- Settles O28: RECT paints each pixel with the last of its ordered writes to it. -/
theorem rectHasItsFinalStateForm : Obligations.RectHasItsFinalStateForm := by
  unfold Obligations.RectHasItsFinalStateForm
  exact fun s hs => ⟨_, exec_rect s,
    (paint_paints (s := s.latch) hs rectWrites_inCanvas).congr fun _ _ _ => lastColor_rectWrites _ _⟩

/-- Settles O24: without its precondition FILL_ROW raises PRECOND, whose cause bit is bit 1 (R22, R171). -/
theorem fillRowBreachRaisesPrecond : Obligations.FillRowBreachRaisesPrecond := by
  unfold Obligations.FillRowBreachRaisesPrecond
  exact fun c _ hbreach => exec_fillRow_of_not_spanInCanvas hbreach c

end Sys2Proof.Machine

/-! PROOFS. The ellipse: the color of each pixel of the figure that OVAL's two regions draw, the end of both loops, and
the statements about OVAL. -/

namespace Sys2Proof.Machine

open Sys2Proof

/-! ## The writes of OVAL -/

theorem exec_oval (s : State) :
    exec .oval s = .next (s.latch.paint
      (ovalWrites s.params s.drawColors (sArg s 0) (sArg s 1) (sArg s 2) (sArg s 3))) := rfl

theorem exec_oval_of_no_writes {s : State}
    (h : ovalWrites s.params s.drawColors (sArg s 0) (sArg s 1) (sArg s 2) (sArg s 3) = []) :
    exec .oval s = .next s.latch := by
  rw [exec_oval, h]
  rfl

/-- The ellipse of the operands, with the arithmetic shifts as halves (R121). -/
theorem ovalOf_eq (dc : BitVec 16) (x y width height : Int) :
    ovalOf dc x y width height =
      ⟨x + width / 2, y + height / 2, width / 2, height / 2, rawColor (nib dc 1), shapeColor (nib dc 0)⟩ := by
  simp only [ovalOf, asr_one]

section

variable {p : Params} {dc : BitVec 16} {x y width height : Int}

theorem ovalWrites_of_sentinel (h : p.ellipseFSentinel = true ∧ nib dc 1 = 0xF) :
    ovalWrites p dc x y width height = [] := if_pos h

/-- A width or height below 2 leaves no axis (R121). -/
theorem ovalWrites_of_lt_two (h : width < 2 ∨ height < 2) : ovalWrites p dc x y width height = [] := by
  have haxis : (ovalOf dc x y width height).a ≤ 0 ∨ (ovalOf dc x y width height).b ≤ 0 := by
    simp only [ovalOf_eq]
    omega
  simp only [ovalWrites, if_pos haxis, ite_self]

theorem ovalWrites_eq_arcWrites (hsent : ¬ (p.ellipseFSentinel = true ∧ nib dc 1 = 0xF))
    (ha : 0 < (ovalOf dc x y width height).a) (hb : 0 < (ovalOf dc x y width height).b) :
    ovalWrites p dc x y width height = arcWrites p (ovalOf dc x y width height) := by
  have haxes := not_or.2 ⟨not_le.2 ha, not_le.2 hb⟩
  simp only [ovalWrites, if_neg hsent, if_neg haxes]

theorem arcWrites_inCanvas {o : Oval} : ∀ w ∈ arcWrites p o, InCanvas p w.x w.y := by
  intro w hw
  exact (List.mem_append.1 hw).elim (region1_inCanvas w) (region2_inCanvas w)

end

/-! ## The end of both loops -/

/-- After `b² + 1` rows the test of region 1 has failed: `sy` exceeds every `sx` (R120). -/
theorem Arc.OnSide.sx_lt_sy {o : Oval} {t : Arc} (ha : 0 < o.a) (h : t.OnSide o) (hY : o.b * o.b + 1 ≤ t.Y) :
    t.sx < t.sy := by
  have hsx := mul_le_mul_of_nonneg_left h.X_le (mul_self_nonneg o.b)
  have hsy := mul_le_mul_of_nonneg_left hY (mul_self_nonneg o.a)
  have haa := mul_le_mul_of_nonneg_left (show (1 : Int) ≤ o.a from ha) (mul_nonneg (mul_self_nonneg o.b) ha.le)
  have hpos : 0 < o.a * o.a := by positivity
  rw [h.sx, h.sy]
  linarith

theorem region1_of_lt {p : Params} {o : Oval} {t : Arc} (h : t.sx < t.sy) (n : Nat) : region1 p o n t = [] := by
  cases n with
  | zero => rfl
  | succ n => exact if_neg (not_le.2 h)

theorem region2_of_lt {p : Params} {o : Oval} {t : Arc} (h : t.sy < t.sx) (n : Nat) : region2 p o n t = [] := by
  cases n with
  | zero => rfl
  | succ n => exact if_neg (not_le.2 h)

/-- Passes of region 1 beyond row `b² + 1` write nothing. -/
theorem region1_add {p : Params} {o : Oval} (ha : 0 < o.a) (hb : 0 < o.b) (n k : Nat) (t : Arc) (h : t.OnSide o)
    (hk : o.b * o.b + 1 ≤ k + t.Y) : region1 p o (k + n) t = region1 p o k t := by
  induction k generalizing t with
  | zero => exact region1_of_lt (h.sx_lt_sy ha (by simpa using hk)) _
  | succ k ih =>
    rw [Nat.succ_add, region1, region1]
    split_ifs with ht
    · obtain ⟨hnext, hY⟩ := h.next ha hb ht
      rw [ih _ hnext (by omega)]
    · rfl

/-- Passes of region 2 beyond column `a² + 1` write nothing. -/
theorem region2_add {p : Params} {o : Oval} (ha : 0 < o.a) (hb : 0 < o.b) (n k : Nat) (t : Arc) (h : t.OnTop o)
    (hk : o.a * o.a + 1 ≤ k + t.X) : region2 p o (k + n) t = region2 p o k t := by
  induction k generalizing t with
  | zero => exact region2_of_lt (h.side.sx_lt_sy (o := o.swap) hb (by simpa [Oval.swap, Arc.swap] using hk)) _
  | succ k ih =>
    rw [Nat.succ_add, region2, region2]
    split_ifs with ht
    · obtain ⟨hnext, hX⟩ := h.next ha hb ht
      rw [ih _ hnext (by omega)]
    · rfl

/-! ## The two arcs and their fills -/

section

variable {a b X Y : Int}

theorem TopArc.nonneg (ha : 0 < a) (hX : 0 ≤ X) (h : TopArc a b X Y) : 0 ≤ Y :=
  SideArc.nonneg ha hX (topArc_iff_sideArc.1 h)

/-- The extreme point of the first axis is the side arc's point on the centre's row. -/
theorem sideArc_extreme (ha : 0 < a) (hb : 0 < b) : SideArc a b a 0 := by
  have hbb : 0 < b * b := by positivity
  have hle : 0 ≤ b * b * (a - 1) := mul_nonneg hbb.le (by omega)
  have herr : ellipseErr a b a 0 = 0 := by simp only [ellipseErr]; ring
  rw [SideArc, herr]
  refine ⟨?_, ?_, ?_⟩ <;> linarith

/-- The extreme point of the second axis is the top arc's point in the centre's column. -/
theorem topArc_extreme (ha : 0 < a) (hb : 0 < b) : TopArc a b 0 b := topArc_iff_sideArc.2 (sideArc_extreme hb ha)

/-- The top arc does not reach the centre's row. -/
theorem not_topArc_row_zero (hb : 0 < b) (hX : 0 ≤ X) : ¬ TopArc a b X 0 := by
  rintro ⟨hslope, hlower, _⟩
  have hbb : 0 < b * b := by positivity
  have hX0 : X = 0 := le_antisymm (nonpos_of_mul_nonpos_right (by linarith) hbb) hX
  have haabb : 0 ≤ a * a * (2 * (b * b) - 1) := mul_nonneg (mul_self_nonneg a) (by omega)
  have herr : ellipseErr a b 0 0 = -(a * a * (b * b)) := by simp only [ellipseErr]; ring
  rw [hX0, herr] at hlower
  linarith

/-- Region 1's fill spans stop short of its stroke points (R124). -/
theorem SideFill.not_sideArc (hb : 0 < b) (hX : 0 ≤ X) (hY : 0 ≤ Y) (h : SideFill a b X Y) :
    ¬ SideArc a b X Y := by
  intro harc
  obtain ⟨X1, harc1, hlt⟩ := h
  exact hlt.ne (SideArc.unique hb hY hX (hX.trans hlt.le) harc harc1)

/-- Region 2's fill spans stop short of its stroke points (R125). -/
theorem TopFill.not_topArc (hX : 0 ≤ X) (h : TopFill a b X Y) : ¬ TopArc a b X Y :=
  fun harc => (h.2 X hX harc).false

/-- Region 2's fill spans cover no stroke point of region 1: the side arc of a row lies beyond its top arc (R126 b). -/
theorem TopFill.not_sideArc (hb : 0 < b) (h : TopFill a b X Y) : ¬ SideArc a b X Y := by
  rintro ⟨hside, _⟩
  obtain ⟨⟨X1, hX1, harc1, _⟩, hleft⟩ := h
  have hlt := mul_lt_mul_of_pos_left (hleft X1 hX1 harc1) (show 0 < b * b by positivity)
  linarith [harc1.1]

/-- A row that meets the top arc has a first point of it. -/
theorem exists_topFirst (hX : 0 ≤ X) (h : TopArc a b X Y) : ∃ F, TopFirst a b F Y := by
  obtain ⟨F, ⟨hF, harc⟩, hleast⟩ := Int.exists_least_of_bdd (P := fun Z => 0 ≤ Z ∧ TopArc a b Z Y)
    ⟨0, fun _ hZ => hZ.1⟩ ⟨X, hX, h⟩
  exact ⟨F, hF, harc, fun Z hZ hZarc => hleast Z ⟨hZ, hZarc⟩⟩

/-- `TopFill` counted back from the row's first top arc point, as region 2's walk does (R125). -/
theorem topFill_iff : TopFill a b X Y ↔
    ∃ X1, 0 ≤ X1 ∧ TopArc a b X1 Y ∧ a * a * (2 * Y - 1) < 2 * ellipseErr a b (X1 + 1) Y ∧
      ∃ F, TopFirst a b F Y ∧ X < F := by
  constructor
  · rintro ⟨⟨X1, hX1, harc, hleaves⟩, hleft⟩
    obtain ⟨F, hF⟩ := exists_topFirst hX1 harc
    exact ⟨X1, hX1, harc, hleaves, F, hF, hleft F hF.1 hF.2.1⟩
  · rintro ⟨X1, hX1, harc, hleaves, F, ⟨_, _, hleast⟩, hlt⟩
    exact ⟨⟨X1, hX1, harc, hleaves⟩, fun Z hZ hZarc => hlt.trans_le (hleast Z hZ hZarc)⟩

end

/-! ## What each region writes to a pixel -/

/-- The distance of a column or row `u` from the centre's, `z`. -/
def axisDist (z u : Int) : Int := ((u - z).natAbs : Int)

theorem axisDist_nonneg (z u : Int) : 0 ≤ axisDist z u := Int.natCast_nonneg _

@[simp] theorem axisDist_self (z : Int) : axisDist z z = 0 := by simp [axisDist]

@[simp] theorem axisDist_mirror (z u : Int) : axisDist z (2 * z - u) = axisDist z u := by
  simp only [axisDist]
  omega

theorem axisDist_eq_iff {z u d : Int} (hd : 0 ≤ d) : axisDist z u = d ↔ u = z + d ∨ u = z - d := by
  simp only [axisDist]
  omega

theorem axisDist_lt_iff {z u d : Int} : axisDist z u < d ↔ z - d + 1 ≤ u ∧ u < z + d := by
  simp only [axisDist]
  omega

section

variable {p : Params} {o : Oval} {c : Color} {x y X Y : Int}

/-- `Plot4` writes the stroke color to the canvas pixels at these distances from the centre. -/
theorem mem_plot4_iff (hxy : InCanvas p x y) (hX : 0 ≤ X) (hY : 0 ≤ Y) :
    ⟨c, x, y⟩ ∈ plot4 p o X Y ↔ (axisDist o.x0 x = X ∧ axisDist o.y0 y = Y) ∧ c = o.stroke := by
  have hcorner : ∀ u v : Int, ⟨c, x, y⟩ ∈ pixelClipped p o.stroke u v ↔ (x = u ∧ y = v) ∧ c = o.stroke := by
    intro u v
    rw [mem_pixelClipped, PixelWrite.mk.injEq]
    constructor
    · rintro ⟨_, hc, hx, hy⟩
      exact ⟨⟨hx, hy⟩, hc⟩
    · rintro ⟨⟨rfl, rfl⟩, hc⟩
      exact ⟨hxy, hc, rfl, rfl⟩
  simp only [plot4, List.mem_append, hcorner, ← or_and_right, axisDist_eq_iff hX, axisDist_eq_iff hY]
  tauto

/-- The two fill spans between the strokes of a row write the fill color to the canvas pixels nearer to the centre's
column. -/
theorem mem_fill2_iff (hxy : InCanvas p x y) (hY : 0 ≤ Y) :
    ⟨c, x, y⟩ ∈ fill2 p o (o.x0 - X + 1) (o.x0 + X) Y ↔
      (axisDist o.x0 x < X ∧ axisDist o.y0 y = Y) ∧ o.fill = some c := by
  cases hfill : o.fill with
  | none => simp [fill2, hfill]
  | some d =>
    simp only [fill2, hfill, List.mem_append, mem_spanClipped, axisDist_lt_iff, axisDist_eq_iff hY,
      Option.some.injEq, eq_comm (a := d)]
    tauto

/-- Region 1 writes the stroke color to the side arc and the fill color to its spans. -/
theorem mem_region1_iff (ha : 0 < o.a) (hb : 0 < o.b) (hxy : InCanvas p x y) :
    ⟨c, x, y⟩ ∈ region1 p o (fuel1 o) (arc1Start o) ↔
      SideArc o.a o.b (axisDist o.x0 x) (axisDist o.y0 y) ∧ c = o.stroke ∨
      SideFill o.a o.b (axisDist o.x0 x) (axisDist o.y0 y) ∧ o.fill = some c := by
  have hx := axisDist_nonneg o.x0 x
  have hy := axisDist_nonneg o.y0 y
  rw [mem_region1 ha hb]
  constructor
  · rintro ⟨X, Y, hY, harc, hw | hw⟩
    · obtain ⟨⟨rfl, rfl⟩, hc⟩ := (mem_plot4_iff hxy (harc.nonneg hb hY) hY).1 hw
      exact .inl ⟨harc, hc⟩
    · obtain ⟨⟨hlt, rfl⟩, hc⟩ := (mem_fill2_iff hxy hY).1 hw
      exact .inr ⟨⟨X, harc, hlt⟩, hc⟩
  · rintro (⟨harc, hc⟩ | ⟨⟨X, harc, hlt⟩, hc⟩)
    · exact ⟨_, _, hy, harc, .inl ((mem_plot4_iff hxy hx hy).2 ⟨⟨rfl, rfl⟩, hc⟩)⟩
    · exact ⟨X, _, hy, harc, .inr ((mem_fill2_iff hxy hy).2 ⟨⟨hlt, rfl⟩, hc⟩)⟩

/-- Region 2 writes the stroke color to the top arc and the fill color to its spans. -/
theorem mem_region2_iff (ha : 0 < o.a) (hb : 0 < o.b) (hxy : InCanvas p x y) :
    ⟨c, x, y⟩ ∈ region2 p o (fuel2 o) (arc2Start o) ↔
      TopArc o.a o.b (axisDist o.x0 x) (axisDist o.y0 y) ∧ c = o.stroke ∨
      TopFill o.a o.b (axisDist o.x0 x) (axisDist o.y0 y) ∧ o.fill = some c := by
  have hx := axisDist_nonneg o.x0 x
  have hy := axisDist_nonneg o.y0 y
  rw [mem_region2 ha hb, topFill_iff]
  constructor
  · rintro ⟨X, Y, hX, harc, hw | ⟨hleaves, F, hF, hw⟩⟩
    · obtain ⟨⟨rfl, rfl⟩, hc⟩ := (mem_plot4_iff hxy hX (harc.nonneg ha hX)).1 hw
      exact .inl ⟨harc, hc⟩
    · obtain ⟨⟨hlt, rfl⟩, hc⟩ := (mem_fill2_iff hxy (harc.nonneg ha hX)).1 hw
      exact .inr ⟨⟨X, hX, harc, hleaves, F, hF, hlt⟩, hc⟩
  · rintro (⟨harc, hc⟩ | ⟨⟨X, hX, harc, hleaves, F, hF, hlt⟩, hc⟩)
    · exact ⟨_, _, hx, harc, .inl ((mem_plot4_iff hxy hx hy).2 ⟨⟨rfl, rfl⟩, hc⟩)⟩
    · exact ⟨X, _, hX, harc, .inr ⟨hleaves, F, hF, (mem_fill2_iff hxy hy).2 ⟨⟨hlt, rfl⟩, hc⟩⟩⟩

end

/-! ## The figure -/

open Classical in
/-- The stroke color where `P` holds, the fill, if there is one, where only `Q` holds, and nothing elsewhere. -/
noncomputable def strokeOver (P Q : Prop) (stroke : Color) (fill : Option Color) : Option Color :=
  if P then some stroke else if Q then fill else none

section

variable {P Q P' Q' : Prop} {stroke : Color} {fill : Option Color}

theorem strokeOver_of_stroke (h : P) : strokeOver P Q stroke fill = some stroke := if_pos h

theorem strokeOver_of_fill (h : ¬ P) (h' : Q) : strokeOver P Q stroke fill = fill := by
  rw [strokeOver, if_neg h, if_pos h']

theorem strokeOver_of_neither (h : ¬ P) (h' : ¬ Q) : strokeOver P Q stroke fill = none := by
  rw [strokeOver, if_neg h, if_neg h']

theorem eq_of_strokeOver_eq_some {c : Color} (h : strokeOver P Q stroke fill = some c) :
    c = stroke ∨ fill = some c := by
  unfold strokeOver at h
  split_ifs at h
  · exact .inl (Option.some.inj h).symm
  · exact .inr h

/-- The last color of writes that are strokes where `P` holds and fills where `Q` holds, never both. -/
theorem lastColor_eq_strokeOver {ws : List PixelWrite} {x y : Int}
    (h : ∀ c, ⟨c, x, y⟩ ∈ ws ↔ P ∧ c = stroke ∨ Q ∧ fill = some c) (hPQ : Q → ¬ P) :
    lastColor ws x y = strokeOver P Q stroke fill := by
  by_cases hP : P
  · rw [strokeOver_of_stroke hP]
    refine lastColor_eq_some ⟨stroke, (h _).2 (.inl ⟨hP, rfl⟩)⟩ fun c hc => ?_
    exact ((h c).1 hc).elim (·.2) fun hfill => absurd hP (hPQ hfill.1)
  · simp only [hP, false_and, false_or] at h
    cases hcol : lastColor ws x y with
    | some c =>
      obtain ⟨hQ, hfill⟩ := (h c).1 (lastColor_mem hcol)
      rw [strokeOver_of_fill hP hQ, hfill]
    | none =>
      by_cases hQ : Q
      · rw [strokeOver_of_fill hP hQ]
        refine (Option.eq_none_iff_forall_ne_some.2 fun c hfill => ?_).symm
        exact lastColor_eq_none.1 hcol _ ((h c).2 ⟨hQ, hfill⟩) ⟨rfl, rfl⟩
      · rw [strokeOver_of_neither hP hQ]

/-- Drawing a second figure over a first one draws their union, if the second one's fill spares the first one's
strokes. -/
theorem strokeOver_or (h : Q' → ¬ P) :
    (strokeOver P' Q' stroke fill).or (strokeOver P Q stroke fill) =
      strokeOver (P ∨ P') (Q ∨ Q') stroke fill := by
  by_cases hP' : P'
  · rw [strokeOver_of_stroke hP', strokeOver_of_stroke (Or.inr hP'), Option.some_or]
  · by_cases hQ' : Q'
    · rw [strokeOver_of_fill hP' hQ', strokeOver_of_fill (not_or.2 ⟨h hQ', hP'⟩) (Or.inr hQ'), strokeOver,
        if_neg (h hQ')]
      cases fill <;> simp
    · rw [strokeOver_of_neither hP' hQ', Option.none_or, or_iff_left hP', or_iff_left hQ']

end

/-- The color at these distances from the centre: the stroke on the two arcs, the fill in the spans of both regions
(R120). -/
noncomputable def Oval.colorAt (o : Oval) (X Y : Int) : Option Color :=
  strokeOver (SideArc o.a o.b X Y ∨ TopArc o.a o.b X Y) (SideFill o.a o.b X Y ∨ TopFill o.a o.b X Y) o.stroke o.fill

/-- The color that OVAL gives to a pixel. -/
noncomputable def Oval.color (o : Oval) (x y : Int) : Option Color := o.colorAt (axisDist o.x0 x) (axisDist o.y0 y)

/-- The last of OVAL's writes to a canvas pixel, in the order of R120. -/
theorem lastColor_arcWrites {p : Params} {o : Oval} {x y : Int} (ha : 0 < o.a) (hb : 0 < o.b)
    (hxy : InCanvas p x y) : lastColor (arcWrites p o) x y = o.color x y := by
  have hx := axisDist_nonneg o.x0 x
  have hy := axisDist_nonneg o.y0 y
  rw [arcWrites, lastColor_append,
    lastColor_eq_strokeOver (fun _ => mem_region1_iff ha hb hxy) (SideFill.not_sideArc hb hx hy),
    lastColor_eq_strokeOver (fun _ => mem_region2_iff ha hb hxy) (TopFill.not_topArc hx),
    strokeOver_or (TopFill.not_sideArc hb), Oval.color, Oval.colorAt]

/-- OVAL paints its figure. -/
theorem exec_oval_paints {s : State} (hs : s.Ready) {o : Oval}
    (ho : o = ovalOf s.drawColors (sArg s 0) (sArg s 1) (sArg s 2) (sArg s 3)) (ha : 0 < o.a) (hb : 0 < o.b)
    (hsent : ¬ (s.params.ellipseFSentinel = true ∧ nib s.drawColors 1 = 0xF)) :
    ∃ t, exec .oval s = .next t ∧ Paints s.latch t o.color := by
  subst ho
  rw [exec_oval, ovalWrites_eq_arcWrites hsent ha hb]
  exact ⟨_, rfl, (paint_paints (s := s.latch) hs arcWrites_inCanvas).congr
    fun _ _ hxy => lastColor_arcWrites ha hb hxy⟩

section

variable {o : Oval}

/-- The color depends on the distances from the centre alone. -/
theorem Oval.color_congr {x y x' y' : Int} (hx : axisDist o.x0 x' = axisDist o.x0 x)
    (hy : axisDist o.y0 y' = axisDist o.y0 y) : o.color x' y' = o.color x y := by
  rw [Oval.color, hx, hy, Oval.color]

/-- The four extreme points of the axes take the stroke color (R121, R123). -/
theorem Oval.color_extreme (ha : 0 < o.a) (hb : 0 < o.b) {q : Int × Int}
    (hq : q ∈ [(o.x0 + o.a, o.y0), (o.x0 - o.a, o.y0), (o.x0, o.y0 + o.b), (o.x0, o.y0 - o.b)]) :
    o.color q.1 q.2 = some o.stroke := by
  have hdist : axisDist o.x0 q.1 = o.a ∧ axisDist o.y0 q.2 = 0 ∨
      axisDist o.x0 q.1 = 0 ∧ axisDist o.y0 q.2 = o.b := by
    simp only [List.mem_cons, List.not_mem_nil, or_false] at hq
    rcases hq with rfl | rfl | rfl | rfl <;> simp [axisDist_eq_iff, ha.le, hb.le]
  obtain ⟨hX, hY⟩ | ⟨hX, hY⟩ := hdist <;> rw [Oval.color, hX, hY]
  · exact strokeOver_of_stroke (.inl (sideArc_extreme ha hb))
  · exact strokeOver_of_stroke (.inr (topArc_extreme ha hb))

/-- Between its extreme points the centre's row takes the fill color (R124). -/
theorem Oval.color_row_zero (ha : 0 < o.a) (hb : 0 < o.b) {x : Int} (hlo : o.x0 - o.a < x) (hhi : x < o.x0 + o.a) :
    o.color x o.y0 = o.fill := by
  have hx := axisDist_nonneg o.x0 x
  have hfill : SideFill o.a o.b (axisDist o.x0 x) 0 :=
    ⟨o.a, sideArc_extreme ha hb, axisDist_lt_iff.2 ⟨by omega, hhi⟩⟩
  rw [Oval.color, axisDist_self]
  refine strokeOver_of_fill (not_or.2 ⟨?_, ?_⟩) (.inl hfill)
  · exact hfill.not_sideArc hb hx le_rfl
  · exact not_topArc_row_zero hb hx

end

/-! ## The statements -/

/-- Settles O57: OVAL's figure, said by the distances from the centre. -/
theorem ovalPaintsItsArcsAndSpans : Obligations.OvalPaintsItsArcsAndSpans := by
  unfold Obligations.OvalPaintsItsArcsAndSpans
  rintro s a b x0 y0 hs rfl rfl rfl rfl ha hb hsent
  obtain ⟨t, hexec, hpaints⟩ := exec_oval_paints hs (ovalOf_eq _ _ _ _ _).symm ha hb hsent
  refine ⟨t, _, hexec, hpaints, ?_⟩
  rintro x y X Y _ rfl rfl
  exact ⟨strokeOver_of_stroke, strokeOver_of_fill, strokeOver_of_neither⟩

/-- Settles O31: mirrored pixels have the same distances from the centre. -/
theorem ovalPaintsASymmetricFigure : Obligations.OvalPaintsASymmetricFigure := by
  unfold Obligations.OvalPaintsASymmetricFigure
  intro s o hs ho ha hb hsent
  obtain ⟨t, hexec, hpaints⟩ := exec_oval_paints hs ho ha hb hsent
  have hstroke : o.stroke = rawColor (nib s.drawColors 1) := ho ▸ rfl
  have hfill : o.fill = shapeColor (nib s.drawColors 0) := ho ▸ rfl
  refine ⟨t, o.color, hexec, hpaints, fun x y c _ hc => ?_, fun x y _ _ => ?_, fun x y _ _ => ?_, fun q hq _ => ?_⟩
  · obtain h | h := eq_of_strokeOver_eq_some hc
    · exact .inl (h.trans hstroke)
    · rw [hfill, shapeColor, Option.ite_none_left_eq_some, Option.some.injEq] at h
      exact .inr ⟨h.1, h.2.symm⟩
  · exact Oval.color_congr (axisDist_mirror _ _) rfl
  · exact Oval.color_congr rfl (axisDist_mirror _ _)
  · rw [← hstroke]
    exact Oval.color_extreme ha hb hq

/-- Settles O32: the figure's color at the extreme points and between those of the centre's row. -/
theorem ovalStrokesItsExtremePoints : Obligations.OvalStrokesItsExtremePoints := by
  unfold Obligations.OvalStrokesItsExtremePoints
  rintro s a b x0 y0 hs rfl rfl rfl rfl ha hb hsent
  obtain ⟨t, hexec, _, hpix, _⟩ := exec_oval_paints hs (ovalOf_eq _ _ _ _ _).symm ha hb hsent
  refine ⟨t, hexec, fun q hq hcanvas => ?_, fun hdc x hlo hhi hcanvas => ?_⟩
  · rw [hpix _ _ hcanvas, Oval.color_extreme ha hb hq, Option.getD_some]
  · rw [hpix _ _ hcanvas, Oval.color_row_zero, shapeColor_of_ne_zero hdc, Option.getD_some]
    exacts [ha, hb, hlo, hhi]

/-- Settles O33: the model's bounds reach the row and the column where the loop tests have failed. -/
theorem ovalLoopsEndByTheirTests : Obligations.OvalLoopsEndByTheirTests := by
  unfold Obligations.OvalLoopsEndByTheirTests
  intro p o n ha hb
  have hbb := mul_self_nonneg o.b
  have haa := mul_self_nonneg o.a
  refine ⟨region1_add ha hb n _ _ (arc1Start_onSide ha hb) ?_, region2_add ha hb n _ _ (arc2Start_onTop ha hb) ?_⟩
  · simp only [fuel1, arc1Start]
    omega
  · simp only [fuel2, arc2Start]
    omega

/-- Settles O29: under the sentinel there are no writes. -/
theorem ovalSentinelWritesNothing : Obligations.OvalSentinelWritesNothing := by
  unfold Obligations.OvalSentinelWritesNothing
  exact fun s hsent hdc => exec_oval_of_no_writes (ovalWrites_of_sentinel ⟨hsent, hdc⟩)

/-- Settles O30: without an axis there are no writes. -/
theorem ovalOfNoAxisWritesNothing : Obligations.OvalOfNoAxisWritesNothing := by
  unfold Obligations.OvalOfNoAxisWritesNothing
  exact fun s hsize => exec_oval_of_no_writes (ovalWrites_of_lt_two hsize)

end Sys2Proof.Machine

/-! PROOFS. The line: the walk's error term is what a rounded quotient leaves over, which gives every point of the walk,
and from them the statements about LINE. -/

namespace Sys2Proof.Machine

open Sys2Proof

/-! ## The steps along the shorter axis -/

/-- The steps along the shorter axis after `k` steps along the longer one: `(k * short - floor(long / 2)) / long`,
rounded up (R132, R134). -/
def shortSteps (long short k : Int) : Int := (k * short - long / 2 + (long - 1)) / long

/-- What rounding up added to the quotient of `shortSteps`. It is the walk's error term, negated if y is the longer
axis. -/
def lineError (long short k : Int) : Int := shortSteps long short k * long - (k * short - long / 2)

section

variable {long short : Int}

theorem shortSteps_eq_iff (hlong : 0 < long) {k m : Int} :
    shortSteps long short k = m ↔
      0 ≤ m * long - (k * short - long / 2) ∧ m * long - (k * short - long / 2) < long := by
  rw [shortSteps, Int.ediv_eq_iff_of_pos hlong]
  omega

theorem lineError_bounds (hlong : 0 < long) (k : Int) :
    0 ≤ lineError long short k ∧ lineError long short k < long := (shortSteps_eq_iff hlong).1 rfl

theorem shortSteps_zero (hlong : 0 ≤ long) : shortSteps long short 0 = 0 := by
  obtain rfl | hpos := hlong.eq_or_lt
  · exact Int.ediv_zero _
  · rw [shortSteps_eq_iff hpos]
    omega

theorem shortSteps_long (hlong : 0 < long) : shortSteps long short long = short := by
  rw [shortSteps_eq_iff hlong, mul_comm]
  omega

theorem lineError_zero (hlong : 0 ≤ long) : lineError long short 0 = long / 2 := by
  rw [lineError, shortSteps_zero hlong]
  omega

/-- A step is due along the shorter axis when the error term has fallen below `short`. -/
theorem shortSteps_succ (hshort : 0 ≤ short) (hle : short ≤ long) (hlong : 0 < long) (k : Int) :
    shortSteps long short (k + 1) =
      shortSteps long short k + if lineError long short k < short then 1 else 0 := by
  have hbounds := lineError_bounds (short := short) hlong k
  rw [shortSteps_eq_iff hlong, add_mul, add_mul, ite_mul]
  simp only [lineError] at hbounds ⊢
  split_ifs <;> omega

theorem lineError_succ (hshort : 0 ≤ short) (hle : short ≤ long) (hlong : 0 < long) (k : Int) :
    lineError long short (k + 1) =
      lineError long short k - short + if lineError long short k < short then long else 0 := by
  rw [lineError, shortSteps_succ hshort hle hlong, lineError, add_mul, add_mul, ite_mul]
  split_ifs <;> omega

end

/-! ## The points of the walk -/

/-- Steps along the longer axis. -/
def Segment.steps (g : Segment) : Int := max g.dx g.dy

/-- Point `k` of the walk. -/
def Segment.pointAt (g : Segment) (k : Int) : Int × Int :=
  if g.dx > g.dy then (g.x1 + g.sx * k, g.y1 + shortSteps g.dx g.dy k)
  else (g.x1 + g.sx * shortSteps g.dy g.dx k, g.y1 + k)

/-- The variables of the walk at point `k`. -/
def Segment.walkAt (g : Segment) (k : Int) : Walk :=
  ⟨(g.pointAt k).1, (g.pointAt k).2, if g.dx > g.dy then lineError g.dx g.dy k else -lineError g.dy g.dx k⟩

section

variable {g : Segment}

theorem Segment.dx_nonneg (g : Segment) : 0 ≤ g.dx := Int.natCast_nonneg _

theorem Segment.dy_nonneg (hg : g.y1 ≤ g.y2) : 0 ≤ g.dy := Int.sub_nonneg_of_le hg

theorem Segment.sx_mul_dx (g : Segment) : g.sx * g.dx = g.x2 - g.x1 := Int.sign_mul_natAbs _

theorem Segment.sx_ne_zero (h : 0 < g.dx) : g.sx ≠ 0 := by
  simp only [Segment.dx] at h
  exact Int.sign_eq_zero_iff_zero.not.2 (by omega)

theorem Segment.steps_of_gt (h : g.dx > g.dy) : g.steps = g.dx := max_eq_left h.le

theorem Segment.steps_of_le (h : g.dx ≤ g.dy) : g.steps = g.dy := max_eq_right h

theorem Segment.steps_nonneg (g : Segment) : 0 ≤ g.steps := g.dx_nonneg.trans (le_max_left _ _)

theorem Segment.pointAt_of_gt (h : g.dx > g.dy) (k : Int) :
    g.pointAt k = (g.x1 + g.sx * k, g.y1 + shortSteps g.dx g.dy k) := if_pos h

theorem Segment.pointAt_of_le (h : g.dx ≤ g.dy) (k : Int) :
    g.pointAt k = (g.x1 + g.sx * shortSteps g.dy g.dx k, g.y1 + k) := if_neg (not_lt.2 h)

theorem Segment.walkAt_of_gt (h : g.dx > g.dy) (k : Int) :
    g.walkAt k = ⟨(g.pointAt k).1, (g.pointAt k).2, lineError g.dx g.dy k⟩ := by
  rw [Segment.walkAt, if_pos h]

theorem Segment.walkAt_of_le (h : g.dx ≤ g.dy) (k : Int) :
    g.walkAt k = ⟨(g.pointAt k).1, (g.pointAt k).2, -lineError g.dy g.dx k⟩ := by
  rw [Segment.walkAt, if_neg (not_lt.2 h)]

theorem Segment.pointAt_zero (hg : g.y1 ≤ g.y2) : g.pointAt 0 = (g.x1, g.y1) := by
  obtain h | h := lt_or_ge g.dy g.dx
  · rw [pointAt_of_gt h, shortSteps_zero g.dx_nonneg, mul_zero, add_zero, add_zero]
  · rw [pointAt_of_le h, shortSteps_zero (dy_nonneg hg), mul_zero, add_zero, add_zero]

theorem Segment.pointAt_steps (hg : g.y1 ≤ g.y2) : g.pointAt g.steps = (g.x2, g.y2) := by
  have hy := dy_nonneg hg
  have hend : (g.x1 + g.sx * g.dx, g.y1 + g.dy) = (g.x2, g.y2) := by
    rw [sx_mul_dx, dy, add_sub_cancel, add_sub_cancel]
  obtain h | h := lt_or_ge g.dy g.dx
  · rw [steps_of_gt h, pointAt_of_gt h, shortSteps_long (hy.trans_lt h), hend]
  · rw [steps_of_le h, pointAt_of_le h]
    obtain hzero | hpos := hy.eq_or_lt
    · have hdx : g.dx = 0 := le_antisymm (hzero ▸ h) g.dx_nonneg
      rw [← hend, ← hzero, hdx, shortSteps_zero le_rfl]
    · rw [shortSteps_long hpos, hend]

/-- No two points of the walk agree along the longer axis (R135 a). -/
theorem Segment.pointAt_injective (hg : g.y1 ≤ g.y2) : Function.Injective g.pointAt := by
  intro j k hjk
  obtain h | h := lt_or_ge g.dy g.dx
  · simp only [pointAt_of_gt h, Prod.mk.injEq, add_right_inj] at hjk
    exact mul_left_cancel₀ (sx_ne_zero ((dy_nonneg hg).trans_lt h)) hjk.1
  · simp only [pointAt_of_le h, Prod.mk.injEq, add_right_inj] at hjk
    exact hjk.2

theorem Segment.pointAt_succ_of_gt (hg : g.y1 ≤ g.y2) (h : g.dx > g.dy) (k : Int) :
    g.pointAt (k + 1) =
      ((g.pointAt k).1 + g.sx, (g.pointAt k).2 + if lineError g.dx g.dy k < g.dy then 1 else 0) := by
  have hy := dy_nonneg hg
  rw [pointAt_of_gt h, pointAt_of_gt h, shortSteps_succ hy h.le (hy.trans_lt h), mul_add, mul_one, add_assoc, add_assoc]

theorem Segment.pointAt_succ_of_le (h : g.dx ≤ g.dy) (hy : 0 < g.dy) (k : Int) :
    g.pointAt (k + 1) =
      ((g.pointAt k).1 + if lineError g.dy g.dx k < g.dx then g.sx else 0, (g.pointAt k).2 + 1) := by
  rw [pointAt_of_le h, pointAt_of_le h, shortSteps_succ g.dx_nonneg h hy, mul_add, mul_ite, mul_one, mul_zero,
    add_assoc, add_assoc]

/-- One step from each point to the next, always along the longer axis (R131, R133). -/
theorem Segment.pointAt_succ (hg : g.y1 ≤ g.y2) {k : Int} (hk₀ : 0 ≤ k) (hk : k + 1 ≤ g.steps) :
    ((g.pointAt (k + 1)).1 = (g.pointAt k).1 ∨ (g.pointAt (k + 1)).1 = (g.pointAt k).1 + g.sx) ∧
      ((g.pointAt (k + 1)).2 = (g.pointAt k).2 ∨ (g.pointAt (k + 1)).2 = (g.pointAt k).2 + 1) ∧
      (g.dy < g.dx → (g.pointAt (k + 1)).1 = (g.pointAt k).1 + g.sx) ∧
      (g.dx ≤ g.dy → (g.pointAt (k + 1)).2 = (g.pointAt k).2 + 1) := by
  obtain h | h := lt_or_ge g.dy g.dx
  · rw [pointAt_succ_of_gt hg h]
    refine ⟨.inr rfl, ?_, fun _ => rfl, fun hle => absurd h (not_lt.2 hle)⟩
    split_ifs <;> simp
  · have hdy : 0 < g.dy := by
      rw [steps_of_le h] at hk
      omega
    rw [pointAt_succ_of_le h hdy]
    refine ⟨?_, .inr rfl, fun hlt => absurd h (not_le.2 hlt), fun _ => rfl⟩
    split_ifs <;> simp

/-! ## The walk visits its points -/

theorem Segment.walkAt_zero (hg : g.y1 ≤ g.y2) : g.walkAt 0 = ⟨g.x1, g.y1, g.err0⟩ := by
  have hy := dy_nonneg hg
  obtain h | h := lt_or_ge g.dy g.dx
  · rw [walkAt_of_gt h, pointAt_zero hg, lineError_zero g.dx_nonneg, err0, if_pos h,
      Int.tdiv_eq_ediv_of_nonneg g.dx_nonneg]
  · rw [walkAt_of_le h, pointAt_zero hg, lineError_zero hy, err0, if_neg (not_lt.2 h), Int.neg_tdiv,
      Int.tdiv_eq_ediv_of_nonneg hy]

/-- With x the longer axis every pass moves x, and y when a step is due (R134). -/
theorem lineNext_walkAt_of_gt (hg : g.y1 ≤ g.y2) (h : g.dx > g.dy) (k : Int) :
    lineNext g (g.walkAt k) = g.walkAt (k + 1) := by
  have hy := Segment.dy_nonneg hg
  have hpos := hy.trans_lt h
  have hmoveX : lineError g.dx g.dy k > -g.dx := by
    have := lineError_bounds (short := g.dy) hpos k
    omega
  rw [Segment.walkAt_of_gt h, Segment.walkAt_of_gt h, Segment.pointAt_succ_of_gt hg h,
    lineError_succ hy h.le hpos]
  by_cases hmoveY : lineError g.dx g.dy k < g.dy <;> simp [lineNext, hmoveX, hmoveY]

/-- With y the longer axis every pass moves y, and x when a step is due (R134). -/
theorem lineNext_walkAt_of_le (h : g.dx ≤ g.dy) (hy : 0 < g.dy) (k : Int) :
    lineNext g (g.walkAt k) = g.walkAt (k + 1) := by
  have hmoveY : -lineError g.dy g.dx k < g.dy := by
    have := lineError_bounds (short := g.dx) hy k
    omega
  rw [Segment.walkAt_of_le h, Segment.walkAt_of_le h, Segment.pointAt_succ_of_le h hy,
    lineError_succ g.dx_nonneg h hy]
  by_cases hmoveX : lineError g.dy g.dx k < g.dx <;> simp [lineNext, hmoveX, hmoveY] <;> omega

theorem lineNext_walkAt (hg : g.y1 ≤ g.y2) (hsteps : 0 < g.steps) (k : Int) :
    lineNext g (g.walkAt k) = g.walkAt (k + 1) := by
  obtain h | h := lt_or_ge g.dy g.dx
  · exact lineNext_walkAt_of_gt hg h k
  · exact lineNext_walkAt_of_le h (Segment.steps_of_le h ▸ hsteps) k

/-- The walk's test holds at its last point only. -/
theorem Segment.walkAt_at_end_iff (hg : g.y1 ≤ g.y2) {k : Int} :
    ((g.walkAt k).x = g.x2 ∧ (g.walkAt k).y = g.y2) ↔ k = g.steps := by
  have hpoint : ((g.walkAt k).x = g.x2 ∧ (g.walkAt k).y = g.y2) ↔ g.pointAt k = (g.x2, g.y2) :=
    (Prod.ext_iff (x := g.pointAt k) (y := (g.x2, g.y2))).symm
  rw [hpoint, ← pointAt_steps hg, (pointAt_injective hg).eq_iff]

/-- From point `k`, `n` steps before the last one, the walk plots the points up to the last one. -/
theorem lineWalk_walkAt (hg : g.y1 ≤ g.y2) (n k fuel : Nat) (hk : (k + n : Int) = g.steps) (hfuel : n < fuel) :
    lineWalk g fuel (g.walkAt k) = (List.range' k (n + 1)).map fun j : Nat => g.pointAt j := by
  induction n generalizing k fuel with
  | zero =>
    obtain ⟨fuel, rfl⟩ := Nat.exists_eq_add_one.2 hfuel
    rw [lineWalk, if_pos ((Segment.walkAt_at_end_iff hg).2 (by simpa using hk))]
    rfl
  | succ n ih =>
    obtain ⟨fuel, rfl⟩ := Nat.exists_eq_add_one.2 (Nat.zero_lt_of_lt hfuel)
    have hnext : lineWalk g fuel (g.walkAt (k + 1)) =
        (List.range' (k + 1) (n + 1)).map fun j : Nat => g.pointAt j :=
      ih (k + 1) fuel (by omega) (by omega)
    rw [lineWalk, if_neg ((Segment.walkAt_at_end_iff hg).not.2 (by omega)), lineNext_walkAt hg (by omega), hnext,
      List.range'_succ]
    rfl

/-- The walk plots the points 0 to `max(dx, dy)` (R135 d). -/
theorem linePoints_eq_map_pointAt (hg : g.y1 ≤ g.y2) :
    linePoints g = (List.range (g.steps.toNat + 1)).map fun k : Nat => g.pointAt k := by
  have hx := g.dx_nonneg
  have hy := Segment.dy_nonneg hg
  have hsteps : (0 + g.steps.toNat : Int) = g.steps := by simpa using g.steps_nonneg
  have hfuel : g.steps.toNat < lineFuel g := by
    simp only [lineFuel, Segment.steps]
    omega
  rw [linePoints, ← Segment.walkAt_zero hg, List.range_eq_range']
  exact lineWalk_walkAt hg _ 0 _ hsteps hfuel

theorem length_linePoints (hg : g.y1 ≤ g.y2) : (linePoints g).length = g.steps.toNat + 1 := by
  rw [linePoints_eq_map_pointAt hg, List.length_map, List.length_range]

theorem getElem?_linePoints_eq_some {k : Nat} {q : Int × Int} (hg : g.y1 ≤ g.y2)
    (hq : (linePoints g)[k]? = some q) : k ≤ g.steps ∧ q = g.pointAt k := by
  have hlt : k < g.steps.toNat + 1 := length_linePoints hg ▸ (List.getElem?_eq_some_iff.1 hq).1
  rw [linePoints_eq_map_pointAt hg, List.getElem?_map, List.getElem?_range hlt, Option.map_some,
    Option.some.injEq] at hq
  have hsteps := g.steps_nonneg
  exact ⟨by omega, hq.symm⟩

theorem mem_linePoints (hg : g.y1 ≤ g.y2) {q : Int × Int} :
    q ∈ linePoints g ↔ ∃ k, 0 ≤ k ∧ k ≤ g.steps ∧ g.pointAt k = q := by
  have hsteps := g.steps_nonneg
  rw [linePoints_eq_map_pointAt hg, List.mem_map]
  constructor
  · rintro ⟨k, hk, hq⟩
    rw [List.mem_range] at hk
    exact ⟨k, by omega, by omega, hq⟩
  · rintro ⟨k, hk, hle, hq⟩
    lift k to Nat using hk
    exact ⟨k, List.mem_range.2 (by omega), hq⟩

end

/-! ## Swapped endpoints -/

/-- The segment with its endpoints swapped. -/
def Segment.swap (g : Segment) : Segment := ⟨g.x2, g.y2, g.x1, g.y1⟩

section

variable {g : Segment}

theorem Segment.normalise_of_le (h : g.y1 ≤ g.y2) : g.normalise = g := if_neg (not_lt.2 h)

theorem Segment.normalise_of_gt (h : g.y1 > g.y2) : g.normalise = g.swap := if_pos h

/-- Unless its rows are equal, a segment and its swap normalise to the same one (R131). -/
theorem Segment.normalise_swap (h : g.y1 ≠ g.y2) : g.swap.normalise = g.normalise := by
  obtain h | h := h.lt_or_gt
  · rw [normalise_of_le h.le, normalise_of_gt (g := g.swap) h]
    rfl
  · rw [normalise_of_gt h, normalise_of_le (g := g.swap) h.le]

theorem Segment.dx_swap (g : Segment) : g.swap.dx = g.dx := by
  simp only [dx, swap]
  omega

theorem Segment.sx_swap (g : Segment) : g.swap.sx = -g.sx := by
  simp only [sx, swap, ← Int.sign_neg, neg_sub]

theorem Segment.steps_of_horizontal (h : g.y1 = g.y2) : g.steps = g.dx := by
  rw [steps, dy, h, sub_self, max_eq_left g.dx_nonneg]

/-- A horizontal segment's walk goes along its row. -/
theorem Segment.pointAt_of_horizontal (h : g.y1 = g.y2) {k : Int} (hk : 0 ≤ k) (hle : k ≤ g.dx) :
    g.pointAt k = (g.x1 + g.sx * k, g.y1) := by
  have hdy : g.dy = 0 := by rw [dy, h, sub_self]
  obtain hzero | hpos := g.dx_nonneg.eq_or_lt
  · obtain rfl : k = 0 := by omega
    rw [pointAt_zero h.le, mul_zero, add_zero]
  · have hrow : shortSteps g.dx 0 k = 0 := by
      rw [shortSteps_eq_iff hpos]
      omega
    rw [pointAt_of_gt (hdy ▸ hpos), hdy, hrow, add_zero]

/-- A horizontal segment's walk, from its other end. -/
theorem Segment.pointAt_swap (h : g.y1 = g.y2) {k : Int} (hk : 0 ≤ k) (hle : k ≤ g.dx) :
    g.swap.pointAt (g.dx - k) = g.pointAt k := by
  have hx : g.x2 + -g.sx * (g.dx - k) = g.x1 + g.sx * k := by linarith [g.sx_mul_dx]
  rw [pointAt_of_horizontal h hk hle, pointAt_of_horizontal (g := g.swap) h.symm (by omega) (by rw [dx_swap]; omega),
    sx_swap]
  exact Prod.ext hx h.symm

theorem mem_linePoints_swap {q : Int × Int} (h : g.y1 = g.y2) (hq : q ∈ linePoints g) :
    q ∈ linePoints g.swap := by
  obtain ⟨k, hk, hle, rfl⟩ := (mem_linePoints h.le).1 hq
  rw [Segment.steps_of_horizontal h] at hle
  refine (mem_linePoints (g := g.swap) h.ge).2 ⟨g.dx - k, by omega, ?_, Segment.pointAt_swap h hk hle⟩
  rw [Segment.steps_of_horizontal (g := g.swap) h.symm, Segment.dx_swap]
  omega

/-- The swapped segment has the same pixels (R135 b). -/
theorem mem_linePoints_normalise_swap (q : Int × Int) :
    q ∈ linePoints g.swap.normalise ↔ q ∈ linePoints g.normalise := by
  obtain h | h := eq_or_ne g.y1 g.y2
  · rw [Segment.normalise_of_le h.le, Segment.normalise_of_le (g := g.swap) h.ge]
    exact ⟨mem_linePoints_swap (g := g.swap) h.symm, mem_linePoints_swap h⟩
  · rw [Segment.normalise_swap h]

end

/-! ## LINE -/

theorem exec_line (s : State) :
    exec .line s = .next (s.latch.paint
      (lineWrites s.params s.drawColors (sArg s 0) (sArg s 1) (sArg s 2) (sArg s 3))) := rfl

/-- LINE's writes paint the canvas points of the walk in `ShapeColor(dc0)` (R130). -/
theorem paint_lineWrites_paints {s : State} (hs : s.Ready) (dc : BitVec 16) (x1 y1 x2 y2 : Int) :
    Paints s (s.paint (lineWrites s.params dc x1 y1 x2 y2)) (fun x y =>
      if (x, y) ∈ linePoints (Segment.normalise ⟨x1, y1, x2, y2⟩) then shapeColor (nib dc 0) else none) :=
  paint_region_paints hs fun _ => mem_lineWrites

/-! ## The statements -/

/-- Settles O34: LINE latches the draw colors and makes its writes under them. -/
theorem linePaintsItsWalk : Obligations.LinePaintsItsWalk := by
  unfold Obligations.LinePaintsItsWalk
  exact fun s hs => ⟨_, exec_line s, paint_lineWrites_paints (s := s.latch) hs _ _ _ _ _⟩

/-- Settles O35: the points are `pointAt 0` to `pointAt max(dx, dy)`, with one step from each to the next. -/
theorem lineWalkReachesItsEndpoint : Obligations.LineWalkReachesItsEndpoint := by
  unfold Obligations.LineWalkReachesItsEndpoint
  intro g hg
  have hsteps := Int.toNat_of_nonneg g.steps_nonneg
  refine ⟨?_, ?_, ?_, ?_, fun k q q' hq hq' => ?_⟩
  · rw [linePoints_eq_map_pointAt hg, List.head?_map, List.head?_range, if_neg (Nat.succ_ne_zero _)]
    exact congrArg some (Segment.pointAt_zero hg)
  · rw [linePoints_eq_map_pointAt hg, List.getLast?_map, List.getLast?_range, if_neg (Nat.succ_ne_zero _),
      Option.map_some, Nat.add_sub_cancel, hsteps, Segment.pointAt_steps hg]
  · rw [length_linePoints hg, Nat.cast_add_one, hsteps, Segment.steps]
  · rw [linePoints_eq_map_pointAt hg]
    exact List.nodup_range.map ((Segment.pointAt_injective hg).comp Nat.cast_injective)
  · obtain ⟨_, rfl⟩ := getElem?_linePoints_eq_some hg hq
    obtain ⟨hk, rfl⟩ := getElem?_linePoints_eq_some hg hq'
    rw [Nat.cast_add_one] at hk ⊢
    exact Segment.pointAt_succ hg (Int.natCast_nonneg k) hk

/-- Settles O58: the closed form is `pointAt`. -/
theorem lineWalkHasItsClosedForm : Obligations.LineWalkHasItsClosedForm := by
  unfold Obligations.LineWalkHasItsClosedForm
  rintro x1 y1 x2 y2 _ _ _ hy rfl rfl rfl
  have hsteps := Segment.steps_nonneg ⟨x1, y1, x2, y2⟩
  rw [linePoints_eq_map_pointAt hy, ← Int.toNat_add_nat hsteps]
  rfl

/-- Settles O36: endpoints on different rows normalise to one segment, and a horizontal walk is reversed. -/
theorem lineIsSymmetricUnderSwap : Obligations.LineIsSymmetricUnderSwap := by
  unfold Obligations.LineIsSymmetricUnderSwap
  exact fun x1 y1 x2 y2 q => (mem_linePoints_normalise_swap (g := ⟨x1, y1, x2, y2⟩) q).symm

end Sys2Proof.Machine

/-! PROOFS. TEXT: the codes that the command reads, where the cursor puts their glyphs, and the pixels that the glyphs
paint. -/

namespace Sys2Proof.Machine

open Sys2Proof

/-! ## What a code means (R142) -/

theorem classify_terminator : classify 0 = .terminator := if_pos rfl

theorem classify_newline : classify 10 = .newline := by decide

theorem classify_of_glyph {code : Byte} (h0 : code ≠ 0) (h10 : code ≠ 10) :
    classify code = .glyph ((code.toNat : Int) - 32) := by
  rw [classify, if_neg h0, if_neg h10]

theorem classify_ne_terminator {code : Byte} (h0 : code ≠ 0) : classify code ≠ .terminator := by
  rw [classify, if_neg h0]
  split_ifs <;> exact nofun

/-! ## The codes that the command reads (R140) -/

/-- The string of at most `n` codes at place `i` reaches place `k`: no code before it is the terminator. -/
def Reaches (code : Nat → Byte) (n i k : Nat) : Prop :=
  i ≤ k ∧ k < i + n ∧ ∀ j, i ≤ j → j < k → code j ≠ 0

section

variable {code code' : Nat → Byte} {n i k : Nat}

theorem not_reaches_zero : ¬ Reaches code 0 i k := fun ⟨hle, hlt, _⟩ => by omega

theorem reaches_start : Reaches code (n + 1) i i := ⟨le_rfl, by omega, fun _ _ _ => by omega⟩

theorem reaches_succ_iff_of_terminator (h : code i = 0) : Reaches code (n + 1) i k ↔ k = i := by
  constructor
  · rintro ⟨hle, _, hbefore⟩
    by_contra hne
    exact hbefore i le_rfl (by omega) h
  · rintro rfl
    exact reaches_start

theorem reaches_succ_iff (h : code i ≠ 0) : Reaches code (n + 1) i k ↔ k = i ∨ Reaches code n (i + 1) k := by
  constructor
  · rintro ⟨hle, hlt, hbefore⟩
    obtain rfl | hgt := hle.eq_or_lt
    · exact .inl rfl
    · exact .inr ⟨hgt, by omega, fun j hj => hbefore j (by omega)⟩
  · rintro (rfl | ⟨hle, hlt, hbefore⟩)
    · exact reaches_start
    · refine ⟨by omega, by omega, fun j hj hjk => ?_⟩
      obtain rfl | hgt := hj.eq_or_lt
      · exact h
      · exact hbefore j hgt hjk

@[simp] theorem textTokens_zero : textTokens code 0 i = [] := rfl

theorem textTokens_succ_of_terminator (h : code i = 0) : textTokens code (n + 1) i = [(i, .terminator)] := by
  rw [textTokens, h, classify_terminator]

theorem textTokens_succ (h : code i ≠ 0) :
    textTokens code (n + 1) i = (i, classify (code i)) :: textTokens code n (i + 1) := by
  have hne := classify_ne_terminator h
  rw [textTokens]
  split
  · next ht => exact absurd ht hne
  · rfl

/-- The tokens are those of the places that the string reaches. -/
theorem mem_textTokens {t : Token} :
    (k, t) ∈ textTokens code n i ↔ Reaches code n i k ∧ t = classify (code k) := by
  induction n generalizing i with
  | zero => simp [not_reaches_zero]
  | succ n ih =>
    by_cases h : code i = 0
    · rw [textTokens_succ_of_terminator h, reaches_succ_iff_of_terminator h, List.mem_singleton, Prod.mk.injEq]
      refine and_congr_right ?_
      rintro rfl
      rw [h, classify_terminator]
    · rw [textTokens_succ h, reaches_succ_iff h, List.mem_cons, Prod.mk.injEq, ih, or_and_right]
      exact or_congr_left (and_congr_right fun hk => by rw [hk])

/-- Only the codes that are read matter. -/
theorem textTokens_congr (h : ∀ k, Reaches code n i k → code' k = code k) :
    textTokens code' n i = textTokens code n i := by
  induction n generalizing i with
  | zero => rfl
  | succ n ih =>
    have hi : code' i = code i := h i reaches_start
    by_cases h0 : code i = 0
    · rw [textTokens_succ_of_terminator h0, textTokens_succ_of_terminator (hi.trans h0)]
    · rw [textTokens_succ h0, textTokens_succ (hi ▸ h0), hi,
        ih fun k hk => h k ((reaches_succ_iff h0).2 (.inr hk))]

/-- A string with the terminator at its place `k` is read as the string of its first `k` codes, but for the
terminator itself. -/
theorem textTokens_of_terminator (hk : k < n) (h : code (i + k) = 0) :
    textTokens code n i = textTokens code k i ∨
      textTokens code n i = textTokens code k i ++ [(i + k, .terminator)] := by
  induction k generalizing n i with
  | zero =>
    obtain ⟨n, rfl⟩ := Nat.exists_eq_add_of_lt hk
    rw [zero_add]
    exact .inr (textTokens_succ_of_terminator h)
  | succ k ih =>
    obtain ⟨n, rfl⟩ : ∃ m, n = m + 1 := ⟨n - 1, by omega⟩
    by_cases h0 : code i = 0
    · rw [textTokens_succ_of_terminator h0, textTokens_succ_of_terminator h0]
      exact .inl rfl
    · rw [textTokens_succ h0, textTokens_succ h0, List.cons_append, show i + (k + 1) = i + 1 + k by omega]
      exact (ih (by omega) (by rwa [Nat.add_right_comm i 1 k])).imp (congrArg _) (congrArg _)

end

/-! ## The cursor (R141) -/

section

variable {x y : Int} {ts pre behind : List (Nat × Token)}

@[simp] theorem placeGlyphs_nil (cx cy : Int) : placeGlyphs x [] cx cy = [] := rfl

@[simp] theorem placeGlyphs_terminator (i : Nat) (cx cy : Int) :
    placeGlyphs x ((i, .terminator) :: ts) cx cy = [] := rfl

@[simp] theorem placeGlyphs_newline (i : Nat) (cx cy : Int) :
    placeGlyphs x ((i, .newline) :: ts) cx cy = placeGlyphs x ts x (cy + 8) := rfl

@[simp] theorem placeGlyphs_glyph (i : Nat) (g cx cy : Int) :
    placeGlyphs x ((i, .glyph g) :: ts) cx cy = ⟨i, g, cx, cy⟩ :: placeGlyphs x ts (cx + 8) cy := rfl

theorem placeGlyphs_append_terminator (i : Nat) (cx cy : Int) :
    placeGlyphs x (ts ++ [(i, .terminator)]) cx cy = placeGlyphs x ts cx cy := by
  induction ts generalizing cx cy with
  | nil => rfl
  | cons t ts ih => obtain ⟨_, _ | _ | _⟩ := t <;> simp [ih]

/-- The cursor's column after the tokens `behind`, the last one first. -/
def cursorX (x : Int) (behind : List (Nat × Token)) : Int :=
  x + 8 * ((behind.takeWhile fun t => t.2 ≠ .newline).length : Int)

/-- The cursor's row after the tokens `behind`. -/
def cursorY (y : Int) (behind : List (Nat × Token)) : Int :=
  y + 8 * ((behind.filter fun t => t.2 = .newline).length : Int)

@[simp] theorem cursorX_newline (i : Nat) : cursorX x ((i, .newline) :: behind) = x := by simp [cursorX]

@[simp] theorem cursorX_glyph (i : Nat) (g : Int) : cursorX x ((i, .glyph g) :: behind) = cursorX x behind + 8 := by
  simp only [cursorX, ne_eq, reduceCtorEq, not_false_eq_true, decide_true, List.takeWhile_cons_of_pos,
    List.length_cons]
  omega

@[simp] theorem cursorY_newline (i : Nat) : cursorY y ((i, .newline) :: behind) = cursorY y behind + 8 := by
  simp only [cursorY, decide_true, List.filter_cons_of_pos, List.length_cons]
  omega

@[simp] theorem cursorY_glyph (i : Nat) (g : Int) : cursorY y ((i, .glyph g) :: behind) = cursorY y behind := by
  simp [cursorY]

theorem cursorY_reverse : cursorY y pre.reverse = cursorY y pre := by
  simp [cursorY, List.filter_reverse]

/-- Where the walk, with the tokens `behind` behind it and `pre` ahead, puts the glyph that follows them. -/
theorem placeGlyphs_append_glyph (hpre : ∀ t ∈ pre, t.2 ≠ .terminator) (behind post : List (Nat × Token)) (i : Nat)
    (g : Int) :
    ∃ before after, placeGlyphs x (pre ++ (i, .glyph g) :: post) (cursorX x behind) (cursorY y behind) =
      before ++ ⟨i, g, cursorX x (pre.reverse ++ behind), cursorY y (pre.reverse ++ behind)⟩ :: after := by
  induction pre generalizing behind with
  | nil => exact ⟨[], _, rfl⟩
  | cons t pre ih =>
    obtain ⟨ht, hpre⟩ := List.forall_mem_cons.1 hpre
    obtain ⟨before, after, h⟩ := ih hpre (t :: behind)
    rw [List.reverse_cons, List.append_assoc, List.singleton_append]
    obtain ⟨j, _ | _ | g'⟩ := t
    · exact absurd rfl ht
    · rw [cursorX_newline, cursorY_newline] at h
      exact ⟨before, after, h⟩
    · rw [cursorX_glyph, cursorY_glyph] at h
      exact ⟨_ :: before, after, congrArg _ h⟩

end

/-! ## The cells of a string in host memory -/

section

variable {s : State} {i k k' n : Nat} {x y : Int}

theorem State.codesBefore_succ (s : State) (k : Nat) : s.codesBefore (k + 1) = s.textCode k :: s.codesBefore k := by
  simp [State.codesBefore, List.range_succ]

@[simp] theorem State.codeX_zero (s : State) : s.codeX 0 = sArg s 2 := by simp [State.codeX, State.codesBefore]

@[simp] theorem State.codeY_zero (s : State) : s.codeY 0 = sArg s 3 := by simp [State.codeY, State.codesBefore]

theorem State.codeX_succ_of_newline (h : s.textCode k = 10) : s.codeX (k + 1) = sArg s 2 := by
  simp [State.codeX, State.codesBefore_succ, h]

theorem State.codeY_succ_of_newline (h : s.textCode k = 10) : s.codeY (k + 1) = s.codeY k + 8 := by
  simp only [State.codeY, State.codesBefore_succ, h, beq_self_eq_true, List.filter_cons_of_pos, List.length_cons]
  omega

theorem State.codeX_succ (h : s.textCode k ≠ 10) : s.codeX (k + 1) = s.codeX k + 8 := by
  have hcode : (s.textCode k != 10) = true := bne_iff_ne.2 h
  simp only [State.codeX, State.codesBefore_succ, List.takeWhile_cons, hcode, if_true, List.length_cons]
  omega

theorem State.codeY_succ (h : s.textCode k ≠ 10) : s.codeY (k + 1) = s.codeY k := by
  have hcode : (s.textCode k == 10) = false := beq_false_of_ne h
  simp only [State.codeY, State.codesBefore_succ, List.filter_cons, hcode, Bool.false_eq_true, if_false]

/-- A later code's cell is below, or to the right on the same row. -/
theorem State.codeCell_after (h : k < k') :
    s.codeY k + 8 ≤ s.codeY k' ∨ (s.codeY k' = s.codeY k ∧ s.codeX k + 8 ≤ s.codeX k') := by
  induction k', h using Nat.le_induction with
  | base =>
    by_cases h10 : s.textCode k = 10
    · exact .inl (State.codeY_succ_of_newline h10).ge
    · exact .inr ⟨State.codeY_succ h10, (State.codeX_succ h10).ge⟩
  | succ j _ ih =>
    by_cases h10 : s.textCode j = 10
    · have := State.codeY_succ_of_newline h10
      omega
    · have := State.codeY_succ h10
      have := State.codeX_succ h10
      omega

/-- Pixel `(x, y)` lies in the 8×8 cell of code `k`. -/
abbrev State.InCell (s : State) (k : Nat) (x y : Int) : Prop :=
  s.codeX k ≤ x ∧ x < s.codeX k + 8 ∧ s.codeY k ≤ y ∧ y < s.codeY k + 8

/-- No pixel lies in the cells of two codes: the cursor never comes back (R141). -/
theorem State.InCell.unique (h : s.InCell k x y) (h' : s.InCell k' x y) : k = k' := by
  obtain ⟨_, _, _, _⟩ := h
  obtain ⟨_, _, _, _⟩ := h'
  obtain hlt | heq | hgt := lt_trichotomy k k'
  · have := State.codeCell_after (s := s) hlt
    omega
  · exact heq
  · have := State.codeCell_after (s := s) hgt
    omega

/-- The glyph of code `k`, at the cursor. -/
def State.placedGlyph (s : State) (k : Nat) : PlacedGlyph :=
  ⟨k, ((s.textCode k).toNat : Int) - 32, s.codeX k, s.codeY k⟩

/-- From a place where the cursor stands as the codes before it say, the walk draws the glyph of every code that it
reads and that is one. -/
theorem mem_placeGlyphs_textTokens {q : PlacedGlyph} :
    q ∈ placeGlyphs (sArg s 2) (textTokens s.textCode n i) (s.codeX i) (s.codeY i) ↔
      ∃ k, Reaches s.textCode n i k ∧ (s.textCode k ≠ 0 ∧ s.textCode k ≠ 10) ∧ q = s.placedGlyph k := by
  induction n generalizing i with
  | zero => simp [not_reaches_zero]
  | succ n ih =>
    by_cases h0 : s.textCode i = 0
    · simp [textTokens_succ_of_terminator h0, reaches_succ_iff_of_terminator h0, h0]
    · have hnext := ih (i := i + 1)
      simp only [textTokens_succ h0, reaches_succ_iff h0, or_and_right, exists_or, exists_eq_left]
      by_cases h10 : s.textCode i = 10
      · rw [State.codeX_succ_of_newline h10, State.codeY_succ_of_newline h10] at hnext
        rw [h10, classify_newline, placeGlyphs_newline, hnext]
        simp
      · rw [State.codeX_succ h10, State.codeY_succ h10] at hnext
        rw [classify_of_glyph h0 h10, placeGlyphs_glyph, List.mem_cons, hnext, and_iff_right ⟨h0, h10⟩]
        rfl

end

/-! ## The glyphs of a string in host memory -/

section

variable {s : State} {k : Nat} {x y : Int}

/-- Every code that TEXT reads lies in host memory outside the framebuffer. -/
def State.CodesStored (s : State) : Prop :=
  ∀ k, s.ReadsCode k →
    (uArg s 0).toNat + k < s.params.hostMemSize ∧ ¬ s.params.InFramebuffer ((uArg s 0).toNat + k)

theorem uArg_nonneg (s : State) (i : Fin 8) : 0 ≤ uArg s i := Int.natCast_nonneg _

theorem codeAddr_uArg (s : State) (k : Nat) : codeAddr (uArg s 0) k = (((uArg s 0).toNat + k : Nat) : Int) := by
  rw [codeAddr, Nat.cast_add, Int.toNat_of_nonneg (uArg_nonneg s 0)]

theorem readsCode_iff_reaches : s.ReadsCode k ↔ Reaches s.textCode (sArg s 1).toNat 0 k := by
  constructor
  · rintro ⟨hlt, hbefore⟩
    exact ⟨k.zero_le, by omega, fun j _ => hbefore j⟩
  · rintro ⟨_, hlt, hbefore⟩
    exact ⟨by omega, fun j => hbefore j j.zero_le⟩

theorem readCode_of_stored (hstored : s.CodesStored) (hk : s.ReadsCode k) :
    readCode s.latch (uArg s 0) k = s.textCode k := by
  obtain ⟨hlt, hfb⟩ := hstored k hk
  rw [readCode, codeAddr_uArg]
  exact sourceRead_of_stored (s := s.latch) (Int.natCast_nonneg _) (Int.ofNat_lt.2 hlt) hfb _

theorem textOf_latch (hstored : s.CodesStored) :
    textOf s.latch = textTokens s.textCode (sArg s 1).toNat 0 :=
  textTokens_congr fun _ hk => readCode_of_stored hstored (readsCode_iff_reaches.2 hk)

/-- TEXT's glyphs are those of the codes that it draws, each at the cursor (R140, R141). -/
theorem mem_textGlyphs_latch (hstored : s.CodesStored) {q : PlacedGlyph} :
    q ∈ textGlyphs s.latch ↔ ∃ k, s.DrawsCode k ∧ q = s.placedGlyph k := by
  have hmem := mem_placeGlyphs_textTokens (s := s) (n := (sArg s 1).toNat) (i := 0) (q := q)
  rw [State.codeX_zero, State.codeY_zero, ← textOf_latch hstored] at hmem
  simp only [State.DrawsCode, readsCode_iff_reaches, and_assoc] at hmem ⊢
  exact hmem

end

/-! ## A glyph's samples (R143, R144) -/

/-- The field of one bit in a byte, as a logical index. -/
theorem sampleField_bit (v : Byte) (bi : Int) :
    sampleField false v bi = if v.getLsbD (7 - (bi % 8).toNat) then 1 else 0 := by
  apply BitVec.eq_of_toNat_eq
  rw [sampleField_toNat, BitVec.getLsbD, Nat.testBit_eq_decide_div_mod_eq]
  obtain h | h := Nat.mod_two_eq_zero_or_one (v.toNat / 2 ^ (7 - (bi % 8).toNat)) <;> simp [h]

theorem setWidth_bit (b : BitVec 1) : (b.setWidth 2 : Color) = 0 ∨ (b.setWidth 2 : Color) = 1 := by
  revert b
  decide

theorem sourceInFramebuffer_natCast {p : Params} {a : Nat} :
    sourceInFramebuffer p (a : Int) = false ↔ ¬ p.InFramebuffer a := by
  rw [sourceInFramebuffer, decide_eq_false_iff_not, Params.InFramebuffer]
  norm_cast

section

variable {p : Params} {q : PlacedGlyph} {c r : Int}

@[simp] theorem glyphSprite_sampleXY : (glyphSprite p q).sampleXY p c r = (c, r) := rfl

theorem glyphSprite_bitIndex : (glyphSprite p q).bitIndex p c r = (8 * q.g + r) * 8 + c := by
  rw [Sprite.bitIndex, glyphSprite_sampleXY]
  simp only [glyphSprite, zero_add]

/-- The byte of row `r`: eight pixels to a byte, eight bytes to a glyph. -/
theorem glyphSprite_byteAddr (h0 : 0 ≤ c) (h8 : c < 8) :
    (glyphSprite p q).byteAddr p c r = p.fontBase + 8 * q.g + r := by
  rw [Sprite.byteAddr_eq, glyphSprite_bitIndex]
  simp only [glyphSprite, Bool.false_eq_true, if_false]
  omega

end

section

variable {s : State} {k c r : Nat}

/-- The address of row `r` of code `k`'s glyph, for a glyph in the atlas. -/
abbrev State.glyphRowAddr (s : State) (k r : Nat) : Nat := s.params.fontBase + 8 * ((s.textCode k).toNat - 32) + r

/-- Every row of an atlas glyph that TEXT draws lies outside the framebuffer. -/
def State.GlyphsStored (s : State) : Prop :=
  ∀ k r : Nat, s.DrawsCode k → InAtlas s.params ((s.textCode k).toNat - 32) → r < 8 →
    ¬ s.params.InFramebuffer (s.glyphRowAddr k r)

theorem placedGlyph_byteAddr (hatlas : InAtlas s.params ((s.textCode k).toNat - 32)) (hc : c < 8) :
    (glyphSprite s.params (s.placedGlyph k)).byteAddr s.params c r = s.glyphRowAddr k r := by
  obtain ⟨h0, _⟩ := hatlas
  rw [glyphSprite_byteAddr (by omega) (by omega), State.glyphRowAddr]
  simp only [State.placedGlyph]
  omega

theorem glyphRowAddr_lt (hp : s.params.WF) (hatlas : InAtlas s.params ((s.textCode k).toNat - 32)) (hr : r < 8) :
    s.glyphRowAddr k r < s.params.hostMemSize := by
  obtain ⟨h0, hlt⟩ := hatlas
  obtain ⟨_, _, _, _, _, _, _, _, hfont⟩ := hp
  rw [State.glyphRowAddr]
  omega

/-- A glyph in the atlas takes the bits of its rows, the most significant first (R143). -/
theorem glyphSample_of_inAtlas (hp : s.params.WF) (hatlas : InAtlas s.params ((s.textCode k).toNat - 32))
    (hc : c < 8) (hr : r < 8) (hfb : ¬ s.params.InFramebuffer (s.glyphRowAddr k r)) :
    glyphSample s.latch (s.placedGlyph k) c r =
      if (s.mem.read (s.glyphRowAddr k r)).getLsbD (7 - c) then 1 else 0 := by
  have haddr := placedGlyph_byteAddr (r := r) hatlas hc
  have hlt := glyphRowAddr_lt hp hatlas hr
  have hbit : (((8 * (s.placedGlyph k).g + r) * 8 + c) % 8).toNat = c := by omega
  rw [glyphSample, if_pos (show InAtlas s.latch.params (s.placedGlyph k).g from hatlas), State.latch_params,
    Sprite.sample_of_stored (s := s.latch), State.latch_params, haddr, Int.toNat_natCast, glyphSprite_bitIndex]
  · show sampleField false _ _ = _
    rw [sampleField_bit, hbit, State.latch_mem]
  all_goals rw [State.latch_params, haddr]
  · omega
  · omega
  · exact hfb

/-- A glyph outside the atlas takes a free bit (R144). -/
theorem glyphSample_of_not_inAtlas {s : State} {q : PlacedGlyph} (hatlas : ¬ InAtlas s.params q.g) (c r : Int) :
    glyphSample s q c r = 0 ∨ glyphSample s q c r = 1 := by
  rw [glyphSample, if_neg hatlas]
  exact setWidth_bit _

theorem glyphReadsFramebuffer_eq_false (hstored : s.GlyphsStored) (hk : s.DrawsCode k) :
    glyphReadsFramebuffer s.params (s.placedGlyph k) = false := by
  by_cases hatlas : InAtlas s.params (s.placedGlyph k).g
  · rw [glyphReadsFramebuffer, Sprite.samplesFramebuffer, Bool.and_eq_false_iff]
    refine .inr (List.any_eq_false.2 ?_)
    rintro ⟨c, r⟩ hwindow
    obtain ⟨hc0, hc8, hr0, hr8, _⟩ := Sprite.mem_window_iff.1 hwindow
    simp only [glyphSprite] at hc8 hr8
    obtain ⟨c, rfl⟩ := Int.eq_ofNat_of_zero_le hc0
    obtain ⟨r, rfl⟩ := Int.eq_ofNat_of_zero_le hr0
    rw [placedGlyph_byteAddr hatlas (by omega), Bool.not_eq_true, sourceInFramebuffer_natCast]
    exact hstored k r hk hatlas (by omega)
  · rw [glyphReadsFramebuffer, decide_eq_false hatlas, Bool.false_and]

/-- A TEXT whose codes and glyphs lie outside the framebuffer is not a case of R48. -/
theorem textReadsFramebuffer_eq_false (hcodes : s.CodesStored) (hglyphs : s.GlyphsStored) :
    textReadsFramebuffer s.latch = false := by
  rw [textReadsFramebuffer, Bool.or_eq_false_iff, List.any_eq_false, List.any_eq_false]
  constructor
  · rintro ⟨k, t⟩ ht
    rw [textOf_latch hcodes, mem_textTokens, ← readsCode_iff_reaches] at ht
    obtain ⟨_, hfb⟩ := hcodes k ht.1
    rw [uArg_latch, codeAddr_uArg, Bool.not_eq_true, State.latch_params, sourceInFramebuffer_natCast]
    exact hfb
  · intro q hq
    obtain ⟨k, hk, rfl⟩ := (mem_textGlyphs_latch hcodes).1 hq
    rw [State.latch_params, glyphReadsFramebuffer_eq_false hglyphs hk]
    exact Bool.false_ne_true

end

/-! ## TEXT's pixels -/

theorem exec_text (s : State) : exec .text s = .next (s.latch.paint (textWrites s.latch)) := rfl

/-- Where the writes to a pixel are those of one color, or none, that is what the pixel takes. -/
theorem lastColor_eq_of_mem_iff {ws : List PixelWrite} {x y : Int} {o : Option Color}
    (h : ∀ c, ⟨c, x, y⟩ ∈ ws ↔ o = some c) : lastColor ws x y = o := by
  cases hlast : lastColor ws x y with
  | some c => exact ((h c).1 (lastColor_mem hlast)).symm
  | none =>
    refine (Option.eq_none_iff_forall_ne_some.2 fun c hc => ?_).symm
    exact lastColor_eq_none.1 hlast _ ((h c).2 hc) ⟨rfl, rfl⟩

theorem Sprite.pixelColor_of_covers {b : Sprite} {x y : Int} (h : b.Covers x y) (dc : BitVec 16)
    (idx : Int → Int → Color) (serial glyph : Nat) :
    b.pixelColor dc idx false serial glyph x y = spriteColor dc (idx (x - b.dstX) (y - b.dstY)) := by
  rw [Sprite.pixelColor, if_pos h]
  exact Option.map_id'

section

variable {s : State} {q : PlacedGlyph} {x y : Int}

/-- A glyph covers its 8×8 cell. -/
theorem glyphSprite_covers_iff {p : Params} :
    (glyphSprite p q).Covers x y ↔ q.cx ≤ x ∧ x < q.cx + 8 ∧ q.cy ≤ y ∧ y < q.cy + 8 := by
  simp only [Sprite.Covers, glyphSprite]
  omega

/-- The color that glyph `q` of a TEXT gives a pixel. -/
def glyphColor (s : State) (q : PlacedGlyph) : Int → Int → Option Color :=
  (glyphSprite s.params q).pixelColor s.dc (glyphSample s q) (textReadsFramebuffer s) s.draws q.place

theorem mem_textWrites_iff {c : Color} (hxy : InCanvas s.params x y) :
    ⟨c, x, y⟩ ∈ textWrites s ↔ ∃ q ∈ textGlyphs s, glyphColor s q x y = some c := by
  simp only [textWrites, List.mem_flatMap, Sprite.mem_writes_iff_pixelColor hxy, glyphColor]

theorem covers_of_glyphColor (h : glyphColor s q x y ≠ none) : (glyphSprite s.params q).Covers x y :=
  Sprite.covers_of_pixelColor h

/-- A pixel that TEXT writes is covered by one of its glyphs. -/
theorem exists_covers_of_lastColor_textWrites (h : lastColor (textWrites s) x y ≠ none) :
    ∃ q ∈ textGlyphs s, (glyphSprite s.params q).Covers x y := by
  obtain ⟨c, hc⟩ := Option.ne_none_iff_exists'.1 h
  have hmem := lastColor_mem hc
  obtain ⟨q, hq, hcolor⟩ := (mem_textWrites_iff (textWrites_inCanvas _ hmem)).1 hmem
  exact ⟨q, hq, covers_of_glyphColor (by simp [hcolor])⟩

/-- A pixel that one glyph covers takes that glyph's color. -/
theorem lastColor_textWrites (hxy : InCanvas s.params x y) (hq : q ∈ textGlyphs s)
    (hunique : ∀ q' ∈ textGlyphs s, (glyphSprite s.params q').Covers x y → q' = q) :
    lastColor (textWrites s) x y = glyphColor s q x y := by
  refine lastColor_eq_of_mem_iff fun c => (mem_textWrites_iff hxy).trans ⟨?_, fun h => ⟨q, hq, h⟩⟩
  rintro ⟨q', hq', hcolor⟩
  rwa [← hunique q' hq' (covers_of_glyphColor (by simp [hcolor]))]

/-- TEXT paints the pixels that its glyphs cover (R140, R143). -/
theorem exec_text_paints (hs : s.Ready) :
    ∃ t, exec .text s = .next t ∧ Paints s.latch t (lastColor (textWrites s.latch)) :=
  ⟨_, exec_text s, paint_paints (s := s.latch) hs textWrites_inCanvas⟩

/-- Pixel `(c, r)` of the cell of a code that TEXT draws is resolved from the glyph's sample. -/
theorem lastColor_textWrites_cell {k c r : Nat} (hcodes : s.CodesStored) (hglyphs : s.GlyphsStored)
    (hk : s.DrawsCode k) (hc : c < 8) (hr : r < 8) (hxy : InCanvas s.params (s.codeX k + c) (s.codeY k + r)) :
    lastColor (textWrites s.latch) (s.codeX k + c) (s.codeY k + r) =
      spriteColor s.drawColors (glyphSample s.latch (s.placedGlyph k) c r) := by
  have hcell : s.InCell k (s.codeX k + c) (s.codeY k + r) := by refine ⟨?_, ?_, ?_, ?_⟩ <;> omega
  have hcovers : (glyphSprite s.params (s.placedGlyph k)).Covers (s.codeX k + c) (s.codeY k + r) :=
    glyphSprite_covers_iff.2 hcell
  rw [lastColor_textWrites (s := s.latch) hxy ((mem_textGlyphs_latch hcodes).2 ⟨k, hk, rfl⟩), glyphColor,
    textReadsFramebuffer_eq_false hcodes hglyphs, State.latch_params, Sprite.pixelColor_of_covers hcovers]
  · simp [glyphSprite, State.placedGlyph]
  · intro q' hq' hcov
    obtain ⟨k', hk', rfl⟩ := (mem_textGlyphs_latch hcodes).1 hq'
    have hcell' : s.InCell k' (s.codeX k + c) (s.codeY k + r) := glyphSprite_covers_iff.1 hcov
    rw [hcell'.unique hcell]

end

/-! ## The length of the string -/

section

variable {s : State} {k : Nat}

/-- The state with `k` as TEXT's length. -/
def State.withLength (s : State) (k : Nat) : State := s.setArgs (s.args.set 1 (BitVec.ofNat 32 k))

theorem withLength_latch (s : State) (k : Nat) : (s.withLength k).latch = s.latch.withLength k := rfl

theorem sArg_withLength (h : (k : Int) < sArg s 1) : sArg (s.withLength k) 1 = k := by
  have hlt : (k : Int) < 2 ^ 31 := h.trans BitVec.toInt_lt
  show ((s.args.set 1 (BitVec.ofNat 32 k)).get 1).toInt = k
  rw [Args.get_set_same, BitVec.toInt_ofNat', Int.bmod_eq_of_le] <;> omega

theorem sArg_withLength_other {i : Fin 8} (hi : i ≠ 1) : sArg (s.withLength k) i = sArg s i :=
  congrArg BitVec.toInt (Args.get_set_other _ _ _ _ hi)

theorem uArg_withLength_other {i : Fin 8} (hi : i ≠ 1) : uArg (s.withLength k) i = uArg s i :=
  congrArg (fun w : Word => (w.toNat : Int)) (Args.get_set_other _ _ _ _ hi)

theorem textOf_withLength (h : (k : Int) < sArg s 1) :
    textOf (s.withLength k) = textTokens (readCode s (uArg s 0)) k 0 := by
  rw [textOf, sArg_withLength h, uArg_withLength_other (by decide), Int.toNat_natCast]
  rfl

/-- The length matters to TEXT's writes only by the glyphs and by whether a framebuffer byte is read. -/
theorem textWrites_withLength (hglyphs : textGlyphs (s.withLength k) = textGlyphs s)
    (hreads : textReadsFramebuffer (s.withLength k) = textReadsFramebuffer s) :
    textWrites (s.withLength k) = textWrites s := by
  rw [textWrites, hglyphs, hreads]
  rfl

/-- With the terminator at place `k`, the length `k` leaves out at most the terminator. -/
theorem textOf_eq_withLength (hk : (k : Int) < sArg s 1) (hcode : readCode s (uArg s 0) k = 0) :
    textOf s = textOf (s.withLength k) ∨ textOf s = textOf (s.withLength k) ++ [(k, .terminator)] := by
  have h := textTokens_of_terminator (code := readCode s (uArg s 0)) (i := 0) (n := (sArg s 1).toNat) (k := k)
    (by omega) (by rwa [zero_add])
  rwa [zero_add, ← textOf_withLength hk, ← textOf] at h

/-- With the terminator at place `k`, outside the framebuffer, the length may as well be `k`. -/
theorem textWrites_withLength_of_terminator (hk : (k : Int) < sArg s 1) (hcode : readCode s (uArg s 0) k = 0)
    (hfb : sourceInFramebuffer s.params (codeAddr (uArg s 0) k) = false) :
    textWrites (s.withLength k) = textWrites s := by
  have hglyphs : textGlyphs (s.withLength k) = textGlyphs s := by
    rw [textGlyphs, textGlyphs, sArg_withLength_other (by decide), sArg_withLength_other (by decide)]
    obtain h | h := textOf_eq_withLength hk hcode
    · rw [h]
    · rw [h, placeGlyphs_append_terminator]
  refine textWrites_withLength hglyphs ?_
  rw [textReadsFramebuffer, textReadsFramebuffer, hglyphs, uArg_withLength_other (by decide)]
  refine congrArg (· || _) ?_
  obtain h | h := textOf_eq_withLength hk hcode
  · rw [h]
    rfl
  · rw [h, List.any_append, List.any_cons, hfb, List.any_nil, Bool.or_false, Bool.or_false]
    rfl

end

/-! ## The statements -/

/-- Settles O37: the two control codes are the bytes 0 and 10. -/
theorem classifyCodes : Obligations.ClassifyCodes := by
  unfold Obligations.ClassifyCodes
  intro code
  simp only [classify, ← BitVec.toNat_inj]
  rfl

/-- Settles O38: a pixel that is written is covered by a glyph, and a glyph covers its cell. -/
theorem textPaintsOnlyItsGlyphCells : Obligations.TextPaintsOnlyItsGlyphCells := by
  unfold Obligations.TextPaintsOnlyItsGlyphCells
  intro s hs
  obtain ⟨t, hexec, hpaints⟩ := exec_text_paints hs
  refine ⟨t, _, hexec, hpaints, fun x y h => ?_⟩
  obtain ⟨q, hq, hcovers⟩ := exists_covers_of_lastColor_textWrites h
  exact ⟨q, hq, glyphSprite_covers_iff.1 hcovers⟩

/-- Settles O39: cells do not overlap, so each pixel of a cell has the color of the one glyph there. -/
theorem textPaintsAGlyphFromTheAtlas : Obligations.TextPaintsAGlyphFromTheAtlas := by
  unfold Obligations.TextPaintsAGlyphFromTheAtlas
  intro s hs hcodes hglyphs
  obtain ⟨t, hexec, hpaints⟩ := exec_text_paints hs
  refine ⟨t, _, hexec, hpaints, fun k c r hk hc hr hxy => ?_, fun x y _ h => ?_⟩
  · rw [lastColor_textWrites_cell hcodes hglyphs hk hc hr hxy]
    split_ifs with hatlas hbit
    · rw [glyphSample_of_inAtlas hs.1 hatlas hc hr (hglyphs k r hk hatlas hr), if_pos hbit]
    · rw [glyphSample_of_inAtlas hs.1 hatlas hc hr (hglyphs k r hk hatlas hr), if_neg hbit]
    · exact (glyphSample_of_not_inAtlas (s := s.latch) hatlas c r).imp (congrArg _) (congrArg _)
  · obtain ⟨q, hq, hcovers⟩ := exists_covers_of_lastColor_textWrites h
    obtain ⟨k, hk, rfl⟩ := (mem_textGlyphs_latch hcodes).1 hq
    exact ⟨k, hk, glyphSprite_covers_iff.1 hcovers⟩

/-- Settles O40: the case of O39 with one code, which is drawn and whose glyph is outside the atlas. -/
theorem textOutsideTheAtlasStaysInItsCell : Obligations.TextOutsideTheAtlasStaysInItsCell := by
  unfold Obligations.TextOutsideTheAtlasStaysInItsCell
  intro s code hs hlen hlt hfb hcode h0 h10 hatlas
  have hptr := uArg_nonneg s 0
  have hfirst : s.textCode 0 = code := hcode.symm
  have hreads : ∀ k, s.ReadsCode k → k = 0 := fun k ⟨hk, _⟩ => by omega
  have hdraws : s.DrawsCode 0 := ⟨⟨by omega, nofun⟩, hfirst ▸ h0, hfirst ▸ h10⟩
  have hcodes : s.CodesStored := by
    intro k hk
    rw [hreads k hk, add_zero]
    exact ⟨by omega, hfb⟩
  have hglyphs : s.GlyphsStored := by
    intro k r hk hin
    rw [hreads k hk.1, hfirst] at hin
    exact absurd hin hatlas
  obtain ⟨t, f, hexec, hpaints, hcell, houtside⟩ := textPaintsAGlyphFromTheAtlas s hs hcodes hglyphs
  refine ⟨t, f, hexec, hpaints, fun x y hxy => ?_⟩
  split_ifs with hin
  · obtain ⟨hx0, hx8, hy0, hy8⟩ := hin
    obtain ⟨c, hc⟩ := Int.eq_ofNat_of_zero_le (sub_nonneg.2 hx0)
    obtain ⟨r, hr⟩ := Int.eq_ofNat_of_zero_le (sub_nonneg.2 hy0)
    obtain rfl : x = s.codeX 0 + c := by rw [State.codeX_zero]; omega
    obtain rfl : y = s.codeY 0 + r := by rw [State.codeY_zero]; omega
    rw [State.codeX_zero] at hx8
    rw [State.codeY_zero] at hy8
    have h := hcell 0 c r hdraws (by omega) (by omega) hxy
    rwa [if_neg (hfirst ▸ hatlas)] at h
  · by_contra hpainted
    obtain ⟨k, hk, hkcell⟩ := houtside x y hxy hpainted
    rw [hreads k hk.1, State.codeX_zero, State.codeY_zero] at hkcell
    exact hin hkcell

/-- Settles O41: the walk's induction, with nothing behind the cursor at the start. -/
theorem textCursorAdvancesByEight : Obligations.TextCursorAdvancesByEight := by
  unfold Obligations.TextCursorAdvancesByEight
  intro x y pre post i g hpre
  obtain ⟨before, after, h⟩ := placeGlyphs_append_glyph (x := x) (y := y) hpre [] post i g
  rw [List.append_nil, cursorY_reverse] at h
  refine ⟨before, after, ?_⟩
  simpa [cursorX, cursorY] using h

/-- Settles O42: code `k` is read as the terminator, and TEXT with length `k` makes the same writes. -/
theorem textStopsAtTheTerminator : Obligations.TextStopsAtTheTerminator := by
  unfold Obligations.TextStopsAtTheTerminator
  intro s k hk hstored hzero
  obtain ⟨h0, hlt, hfb⟩ := hstored k le_rfl
  refine ⟨_, _, exec_text s, exec_text (s.withLength k), ?_⟩
  have hout : ¬ s.params.InFramebuffer (uArg s 0 + k).toNat := by
    rwa [← sourceInFramebuffer_natCast, Int.toNat_of_nonneg h0]
  have hcode : readCode s.latch (uArg s 0) k = 0 :=
    (sourceRead_of_stored (s := s.latch) h0 hlt hout _).trans hzero
  rw [withLength_latch, State.paint_mem, State.paint_mem,
    textWrites_withLength_of_terminator (s := s.latch) hk hcode hfb]
  rfl

end Sys2Proof.Machine

/-! PROOFS. BLIT: its sample coordinates under every orientation and both settings of `FLIP_BASIS`, and the pixels that
it draws from source bytes outside the framebuffer. -/

namespace Sys2Proof

/-- The parameters with another setting of `FLIP_BASIS`. -/
def Params.withFlipBasis (p : Params) (v : FlipBasis) : Params := { p with flipBasis := v }

end Sys2Proof

namespace Sys2Proof.Machine

open Sys2Proof

/-! ## The sample coordinates (R152, R153, R157) -/

/-- A sprite's column `c` mirrored by the setting of `FLIP_BASIS` (R157). -/
def Sprite.mirrorX (p : Params) (b : Sprite) (c : Int) : Int := mirror p c b.width b.cxmin (b.cxmax p)

/-- A sprite's row `r` mirrored by the setting of `FLIP_BASIS` (R157). -/
def Sprite.mirrorY (p : Params) (b : Sprite) (r : Int) : Int := mirror p r b.height b.cymin (b.cymax p)

/-- The sprite's window is not clipped: it lies inside the canvas (R151). -/
abbrev Sprite.Unclipped (p : Params) (b : Sprite) : Prop :=
  0 ≤ b.dstX ∧ b.dstX + b.width ≤ p.width ∧ 0 ≤ b.dstY ∧ b.dstY + b.height ≤ p.height

section

variable {p : Params} {b : Sprite}

theorem Sprite.sampleXY_of_not_rotate (h : b.rotate = false) (c r : Int) :
    b.sampleXY p c r = (if b.flipX then b.mirrorX p c else c, if b.flipY then b.mirrorY p r else r) := by
  rw [Sprite.sampleXY, h]
  rfl

theorem Sprite.sampleXY_of_rotate (h : b.rotate = true) (c r : Int) :
    b.sampleXY p c r = (if b.flipX then r else b.mirrorY p r, if b.flipY then b.mirrorX p c else c) := by
  rw [Sprite.sampleXY, h]
  rfl

/-- The settings of `FLIP_BASIS` agree where the clipped bounds are the whole extent. -/
theorem mirror_whole (p : Params) (t ext : Int) : mirror p t ext 0 ext = ext - 1 - t := by
  cases h : p.flipBasis <;> simp [mirror, h]

theorem Sprite.Unclipped.mirrorX (h : b.Unclipped p) (c : Int) : b.mirrorX p c = b.width - 1 - c := by
  obtain ⟨hleft, hright, _, _⟩ := h
  have hmin : b.cxmin = 0 := max_eq_left (by omega)
  have hmax : b.cxmax p = b.width := min_eq_left (by omega)
  rw [Sprite.mirrorX, hmin, hmax, mirror_whole]

theorem Sprite.Unclipped.mirrorY (h : b.Unclipped p) (r : Int) : b.mirrorY p r = b.height - 1 - r := by
  obtain ⟨_, _, htop, hbottom⟩ := h
  have hmin : b.cymin = 0 := max_eq_left (by omega)
  have hmax : b.cymax p = b.height := min_eq_left (by omega)
  rw [Sprite.mirrorY, hmin, hmax, mirror_whole]

end

/-! ## Another setting of `FLIP_BASIS` -/

/-- The state under another setting of `FLIP_BASIS`. -/
def State.withFlipBasis (s : State) (v : FlipBasis) : State := { s with params := s.params.withFlipBasis v }

section

variable {p : Params} {b : Sprite} (v : FlipBasis)

theorem Sprite.Unclipped.withFlipBasis (h : b.Unclipped p) : b.Unclipped (p.withFlipBasis v) := h

theorem Sprite.Unclipped.sampleXY_withFlipBasis (h : b.Unclipped p) (c r : Int) :
    b.sampleXY (p.withFlipBasis v) c r = b.sampleXY p c r := by
  have h' := h.withFlipBasis v
  cases hrot : b.rotate with
  | false =>
    rw [Sprite.sampleXY_of_not_rotate hrot, Sprite.sampleXY_of_not_rotate hrot, h.mirrorX, h.mirrorY, h'.mirrorX,
      h'.mirrorY]
  | true =>
    rw [Sprite.sampleXY_of_rotate hrot, Sprite.sampleXY_of_rotate hrot, h.mirrorX, h.mirrorY, h'.mirrorX, h'.mirrorY]

theorem Sprite.Unclipped.bitIndex_withFlipBasis (h : b.Unclipped p) (c r : Int) :
    b.bitIndex (p.withFlipBasis v) c r = b.bitIndex p c r := by
  rw [Sprite.bitIndex, Sprite.bitIndex, h.sampleXY_withFlipBasis]

theorem Sprite.Unclipped.byteAddr_withFlipBasis (h : b.Unclipped p) (c r : Int) :
    b.byteAddr (p.withFlipBasis v) c r = b.byteAddr p c r := by
  rw [Sprite.byteAddr, Sprite.byteAddr, h.bitIndex_withFlipBasis]

theorem Sprite.Unclipped.samplesFramebuffer_withFlipBasis (h : b.Unclipped p) :
    b.samplesFramebuffer (p.withFlipBasis v) = b.samplesFramebuffer p := by
  simp only [Sprite.samplesFramebuffer, h.byteAddr_withFlipBasis]
  rfl

end

section

variable {s : State} {b : Sprite} (v : FlipBasis)

theorem Sprite.Unclipped.sample_withFlipBasis (h : b.Unclipped s.params) (serial glyph : Nat) :
    b.sample (s.withFlipBasis v) serial glyph = b.sample s serial glyph := by
  funext c r
  simp only [Sprite.sample, State.withFlipBasis, h.byteAddr_withFlipBasis, h.bitIndex_withFlipBasis]
  rfl

/-- An unclipped blit makes the same writes under either setting. -/
theorem Sprite.Unclipped.blitWrites_withFlipBasis (h : b.Unclipped s.params) :
    blitWrites (s.withFlipBasis v) b = blitWrites s b := by
  have htaint : b.samplesFramebuffer (s.withFlipBasis v).params = _ := h.samplesFramebuffer_withFlipBasis v
  rw [blitWrites, h.sample_withFlipBasis, htaint]
  rfl

theorem latch_withFlipBasis (s : State) : (s.withFlipBasis v).latch = s.latch.withFlipBasis v := rfl

theorem blitSprite_withFlipBasis (s : State) (bpp2 flipX flipY rotate : Bool) :
    blitSprite (s.withFlipBasis v) bpp2 flipX flipY rotate = blitSprite s bpp2 flipX flipY rotate := rfl

theorem paint_withFlipBasis_mem (s : State) (ws : List PixelWrite) :
    ((s.withFlipBasis v).paint ws).mem = (s.paint ws).mem := rfl

end

/-! ## BLIT from its operands to its pixels -/

theorem exec_blit (bpp2 flipX flipY rotate : Bool) (s : State) :
    exec (.blit bpp2 flipX flipY rotate) s =
      .next (s.latch.paint (blitWrites s.latch (blitSprite s bpp2 flipX flipY rotate))) := rfl

/-- BLIT's operands, with the extents exchanged in a rotated blit under `ROTATE_DIMS = SOURCE` (R150, R156). -/
theorem blitSprite_eq {s : State} {W H : Int} {rotate : Bool}
    (h : (W, H) = if rotate = true ∧ s.params.rotateDims = .source then (sArg s 4, sArg s 3) else (sArg s 3, sArg s 4))
    (bpp2 flipX flipY : Bool) :
    blitSprite s bpp2 flipX flipY rotate =
      { base := uArg s 0, dstX := sArg s 1, dstY := sArg s 2, width := W, height := H,
        srcX := sArg s 5, srcY := sArg s 6, srcStride := sArg s 7,
        bpp2 := bpp2, flipX := flipX, flipY := flipY, rotate := rotate } := by
  rw [blitSprite, Sprite.oriented]
  split_ifs at h ⊢ <;> (obtain ⟨rfl, rfl⟩ := Prod.mk.inj h; rfl)

/-- The logical index that a bit index selects in its byte, from the byte's value (R41). -/
theorem sampleField_eq_ofNat (bpp2 : Bool) (v : Byte) (bi : Int) :
    sampleField bpp2 v bi = BitVec.ofNat 2
      (if bpp2 then v.toNat / 2 ^ (6 - 2 * (bi % 4).toNat) % 4 else v.toNat / 2 ^ (7 - (bi % 8).toNat) % 2) := by
  rw [← sampleField_toNat, BitVec.ofNat_toNat, BitVec.setWidth_eq]

/-- Every source byte of the sprite lies in host memory outside the framebuffer. -/
def Sprite.Stored (p : Params) (b : Sprite) : Prop :=
  ∀ c r, (c, r) ∈ b.window p →
    0 ≤ b.byteAddr p c r ∧ b.byteAddr p c r < p.hostMemSize ∧ ¬ p.InFramebuffer (b.byteAddr p c r).toNat

theorem Sprite.Stored.samplesFramebuffer_eq_false {p : Params} {b : Sprite} (h : b.Stored p) :
    b.samplesFramebuffer p = false := by
  rw [Sprite.samplesFramebuffer, List.any_eq_false]
  rintro ⟨c, r⟩ hwindow
  obtain ⟨h0, _, hfb⟩ := h c r hwindow
  rwa [Bool.not_eq_true, ← Int.toNat_of_nonneg h0, sourceInFramebuffer_natCast]

/-- A BLIT that samples no framebuffer byte paints each pixel that it covers in the color of its sample (R155). -/
theorem exec_blit_paints_samples {s : State} (hs : s.Ready) {bpp2 flipX flipY rotate : Bool} {b : Sprite}
    (hb : b = blitSprite s bpp2 flipX flipY rotate) (htaint : b.samplesFramebuffer s.params = false) :
    ∃ t, exec (.blit bpp2 flipX flipY rotate) s = .next t ∧
      Paints s.latch t (fun x y => if b.Covers x y then
        spriteColor s.drawColors (b.sample s.latch s.latch.draws 0 (x - b.dstX) (y - b.dstY)) else none) := by
  obtain ⟨t, hexec, hpaints⟩ := exec_blit_paints hs hb
  refine ⟨t, hexec, hpaints.congr fun x y _ => ?_⟩
  split_ifs with hcovers
  · rw [htaint, Sprite.pixelColor_of_covers hcovers]
  · exact if_neg hcovers

/-- A BLIT from stored bytes paints each pixel that it covers in the color of its field (R154, R155). -/
theorem exec_blit_paints_fields {s : State} (hs : s.Ready) {bpp2 flipX flipY rotate : Bool} {b : Sprite}
    (hb : b = blitSprite s bpp2 flipX flipY rotate) (hstored : b.Stored s.params) :
    ∃ t, exec (.blit bpp2 flipX flipY rotate) s = .next t ∧
      Paints s.latch t (fun x y => if b.Covers x y then
        spriteColor s.drawColors (sampleField b.bpp2
          (s.mem.read (b.byteAddr s.params (x - b.dstX) (y - b.dstY)).toNat)
          (b.bitIndex s.params (x - b.dstX) (y - b.dstY))) else none) := by
  obtain ⟨t, hexec, hpaints⟩ := exec_blit_paints_samples hs hb hstored.samplesFramebuffer_eq_false
  refine ⟨t, hexec, hpaints.congr fun x y hxy => ?_⟩
  split_ifs with hcovers
  · obtain ⟨h0, hlt, hfb⟩ := hstored _ _ ((Sprite.mem_window_iff_covers hxy).2 hcovers)
    rw [Sprite.sample_of_stored (s := s.latch) h0 hlt hfb]
    rfl
  · rfl

/-! ## The statements -/

/-- Settles O47: an unrotated blit flips each axis by its own flag, and a rotated one swaps the axes and inverts
`flipX`. -/
theorem rotateAndFlipCoordinates : Obligations.RotateAndFlipCoordinates := by
  unfold Obligations.RotateAndFlipCoordinates
  intro p b c r mc mr hmc hmr
  obtain rfl : mc = b.mirrorX p c := hmc
  obtain rfl : mr = b.mirrorY p r := hmr
  cases hrot : b.rotate with
  | false =>
    rw [Sprite.sampleXY_of_not_rotate hrot]
    cases b.flipX <;> cases b.flipY <;> rfl
  | true =>
    rw [Sprite.sampleXY_of_rotate hrot]
    cases b.flipX <;> cases b.flipY <;> rfl

/-- Settles O43: the sampler's pixels, none of them free. -/
theorem blitPaintsItsSamples : Obligations.BlitPaintsItsSamples := by
  unfold Obligations.BlitPaintsItsSamples
  exact fun _ _ _ _ _ _ hs hb htaint => exec_blit_paints_samples hs hb htaint

/-- Settles O48: the two runs make the same writes. -/
theorem flipBasesAgreeUnclipped : Obligations.FlipBasesAgreeUnclipped := by
  unfold Obligations.FlipBasesAgreeUnclipped
  rintro bpp2 flipX flipY rotate s v b rfl hleft hright htop hbottom
  have hin : (blitSprite s bpp2 flipX flipY rotate).Unclipped s.latch.params := ⟨hleft, hright, htop, hbottom⟩
  refine ⟨_, _, exec_blit .., exec_blit bpp2 flipX flipY rotate (s.withFlipBasis v), ?_⟩
  rw [latch_withFlipBasis, blitSprite_withFlipBasis, hin.blitWrites_withFlipBasis, paint_withFlipBasis_mem]

/-- Settles O59: the statement's window, coordinates, bit indices and addresses are those of BLIT's sprite. -/
theorem blitDrawsItsBitmap : Obligations.BlitDrawsItsBitmap := by
  unfold Obligations.BlitDrawsItsBitmap
  intro bpp2 flipX flipY rotate s W H X Y bi a hs hdims hXY hbi ha hstored
  have hb := (blitSprite_eq hdims bpp2 flipX flipY).symm
  set b : Sprite := ⟨uArg s 0, sArg s 1, sArg s 2, W, H, sArg s 5, sArg s 6, sArg s 7, bpp2, flipX, flipY, rotate⟩
  have hsample (c r : Int) : (X c r, Y c r) = b.sampleXY s.params c r := hXY c r
  have hindex (c r : Int) : b.bitIndex s.params c r = bi c r := by rw [hbi, Sprite.bitIndex, ← hsample]
  have haddr (c r : Int) : b.byteAddr s.params c r = a c r := by rw [ha, Sprite.byteAddr_eq, hindex]
  have hbytes : b.Stored s.params := fun c r hwindow => by
    obtain ⟨hc, hcW, hr, hrH, hxy⟩ := Sprite.mem_window_iff.1 hwindow
    rw [haddr]
    exact hstored c r hc hcW hr hrH hxy
  obtain ⟨t, hexec, hpaints⟩ := exec_blit_paints_fields hs hb hbytes
  simp only [hindex, haddr, sampleField_eq_ofNat] at hpaints
  exact ⟨t, hexec, hpaints⟩

end Sys2Proof.Machine

/-! PROOFS. Exceptions and the host's duties: an illegal word, the idle block, a reset, a command that raises, and that
a dutiful host's step always goes on. -/

namespace Sys2Proof.Machine

open Sys2Proof

/-! ## One step -/

/-- A word that the decoder rejects raises ILLEGAL, with the word in `CMD` (R170). -/
theorem issue_of_decode_error {w : Word} {e : DecodeError} (h : decode w = .error e) (s : State) :
    issue w s = .next ((s.setCmd w).raise .illegal) := by
  simp only [issue, h]

/-- The idle block waits (R192). -/
theorem step_idle {s : State} (hp : s.params.WF) (h : s.pending = []) : step s = .next s := by
  simp only [step, hostStep, if_pos hp, h]

/-- The host's reset resets the block (R190). -/
theorem step_reset {s : State} (hp : s.params.WF) {rest : List HostAction} (h : s.pending = .reset :: rest) :
    step s = .next (resetBlock (s.setPending rest)) :=
  step_eq_act hp h

/-! ## What a host action keeps of the host's side -/

/-- Every host action keeps the parameters and the actions that are still pending. -/
theorem act_keeps_host {a : HostAction} {s t : State} (h : act a s = .next t) :
    t.params = s.params ∧ t.pending = s.pending := by
  obtain ⟨w, i, _, e⟩ | ⟨w, _, _, rfl⟩ | ⟨i, w, rfl⟩ | rfl | ⟨w, rfl⟩ | ⟨b, v, _, _, rfl⟩ | ⟨_, rfl⟩ := act_cases h
  · obtain ⟨u, hu, _, _, hparams, hpending, _⟩ := exec_keeps_port i (s.setCmd w)
    obtain rfl := Host.Outcome.next.inj (e.symm.trans hu)
    exact ⟨hparams, hpending⟩
  all_goals exact ⟨rfl, rfl⟩

/-! ## A dutiful host -/

/-- A write to a register of the port goes on to a next state: a command is a total function (R60, R177). -/
theorem writePort_completes (r : PortReg) (w : Word) (s : State) : ∃ t, writePort r w s = .next t := by
  cases r with
  | cmd =>
    obtain ⟨t, e, _⟩ := issue_keeps_cmd w s
    exact ⟨t, e⟩
  | status => exact ⟨_, rfl⟩
  | arg i => exact ⟨_, rfl⟩
  | reserved => exact ⟨_, rfl⟩

/-- An action by which the host keeps its duties is neither a fault nor refused (R196, R197). -/
theorem act_completes_of_allowed {a : HostAction} {s : State} (h : a.allowed s.params = true) :
    ∃ t, act a s = .next t := by
  cases a with
  | portWrite addr bytes w =>
    obtain ⟨r, hr⟩ := Option.isSome_iff_exists.1 h
    simp only [act, hr]
    exact writePort_completes r w s
  | portRead addr bytes =>
    obtain ⟨r, hr⟩ := Option.isSome_iff_exists.1 h
    simp only [act, hr]
    exact ⟨_, rfl⟩
  | memWrite a v =>
    obtain ⟨hlt, hfb⟩ := of_decide_eq_true h
    exact ⟨_, (if_neg (not_le.2 hlt)).trans (if_neg hfb)⟩
  | memRead a =>
    have hlt : a < s.params.hostMemSize := of_decide_eq_true h
    exact ⟨_, if_neg (not_le.2 hlt)⟩
  | reset => exact ⟨_, rfl⟩

/-- Under legal parameters a dutiful host's step goes on (R177, R196, R197). -/
theorem step_completes_of_dutiful {s : State} (hp : s.params.WF) (hd : s.HostDutiful) : ∃ t, step s = .next t := by
  cases hpend : s.pending with
  | nil => exact ⟨s, step_idle hp hpend⟩
  | cons a rest =>
    have hallowed : a.allowed s.params = true := hd a (by simp [hpend])
    rw [step_eq_act hp hpend]
    exact act_completes_of_allowed (s := s.setPending rest) hallowed

/-- A step takes at most the first action off the host's list, so the host stays dutiful. -/
theorem step_keeps_dutiful {s t : State} (hd : s.HostDutiful) (h : step s = .next t) : t.HostDutiful := by
  obtain ⟨_, ⟨_, rfl⟩ | ⟨a, rest, hpend, hact⟩⟩ := step_cases h
  · exact hd
  · obtain ⟨hparams, hpending⟩ := act_keeps_host hact
    intro b hb
    have hrest : b ∈ rest := by simpa [hpending] using hb
    rw [hparams]
    exact hd b (by simp [hpend, hrest])

/-! ## The statements -/

/-- Settles O9: the step goes on, and what it goes on to is good and has a dutiful host. -/
theorem dutifulHostNeverStops : Obligations.DutifulHostNeverStops := by
  unfold Obligations.DutifulHostNeverStops
  intro s hs hd
  have ⟨hp, _⟩ := hs
  obtain ⟨t, h⟩ := step_completes_of_dutiful hp hd
  exact ⟨t, h, step_keeps_inv hs h, step_keeps_dutiful hd h⟩

/-- Settles O12: of the ways in which a command can end, only the exception of WRITE_U and FILL_ROW changes
`STATUS`. -/
theorem exceptionsArePrecise : Obligations.ExceptionsArePrecise := by
  unfold Obligations.ExceptionsArePrecise
  intro i s t h
  obtain ⟨e, hraiser⟩ | ⟨_, e⟩ | ⟨ws, e, _⟩ | ⟨ws, e, _⟩ := exec_cases i s <;>
    obtain rfl := Host.Outcome.next.inj (h.symm.trans e)
  case inl => exact .inr ⟨rfl, hraiser⟩
  all_goals exact .inl rfl

/-- Settles O5: offset 0 of the port is `CMD`, and a word written to it that does not decode raises ILLEGAL. -/
theorem illegalWordOnlySetsIllegal : Obligations.IllegalWordOnlySetsIllegal := by
  unfold Obligations.IllegalWordOnlySetsIllegal
  intro s w e rest hp hpend hdecode
  have hcmd : portReg 0 = some .cmd := rfl
  exact (step_portWrite hp hcmd hpend).trans (issue_of_decode_error hdecode _)

/-- Settles O6: the idle step. -/
theorem idleBlockWaits : Obligations.IdleBlockWaits := by
  unfold Obligations.IdleBlockWaits
  exact fun _ hp h => step_idle hp h

/-- Settles O54: a reset writes the registers and the latch only, and `STATUS` with 0. -/
theorem resetClearsStatusAndKeepsMemory : Obligations.ResetClearsStatusAndKeepsMemory := by
  unfold Obligations.ResetClearsStatusAndKeepsMemory
  intro s rest hp h
  exact ⟨_, step_reset hp h, rfl, rfl, rfl, rfl, rfl⟩

end Sys2Proof.Machine
